-- ==== Sys2Proof/Word.lean ====
section
/-! DEFINITION. The words of the RC5-32/12/16 engine (00_scope.md R10): every datum is an unsigned
bit vector, and `+`, `-` and `^^^` of Lean's `BitVec 32` are the spec's `+32`, `-32` and `^` (R11). -/

namespace Sys2Proof

/-- A word: "a 32-bit unsigned integer" (R10, R18). -/
abbrev Word := BitVec 32

/-- A byte. -/
abbrev Byte := BitVec 8

/-- A byte offset within the 256-byte register window (R8, R19). -/
abbrev Offset := BitVec 8

/-- The 11-bit header `H = cat(WR, SZ, OFF)` of a bus transaction (R71). -/
abbrev Header := BitVec 11

/-- One bit for each of the four byte lanes of a 32-bit register: lane `k` is bits
`[8k+7:8k]` (R19), as a concrete bus's byte strobes number them (R71). -/
abbrev Lanes := BitVec 4

end Sys2Proof
end

