-- ==== Sys2Proof/Config.lean ====
section
/-! DEFINITION. What is fixed for this hardware (R7, R8), and what the spec leaves open (R9, R16): a free value is
an `opaque` constant, so that nothing proved about the model can rest on the value it takes. -/

namespace Sys2Proof.Config

/-- `P`, the first magic constant (R7, R128). -/
def magicP : Word := 0xb7e15163#32

/-- `Q`, the second magic constant (R7, R128). -/
def magicQ : Word := 0x9e3779b9#32

/-- The constant value of PARAM: VERSION 1, KEYBYTES 16, ROUNDS 12, WBITS 32 (R8, R27). -/
def paramValue : Word := 0x01100C20#32

/-- `R`, the number of rounds (R7). -/
abbrev rounds : Nat := 12

/-- `T = 2 × (R + 1)`, the words of the Key Table (R7). -/
abbrev tableWords : Nat := 26

/-- `NMIX = 3 × T`, the mixing micro-steps of EXPAND (R7, R127). -/
abbrev mixSteps : Nat := 78

/-- `draw()` (R16): the bytes the spec does not fix. The `n`th free byte of a run; nothing is known of it. Read by a bus
read of S while EXPAND runs and of DATA while ENCODE or DECODE runs (R95; 93_implementation_defined.md U3). Log entry 5. -/
opaque drawByte : Nat → Byte

/-- The open parameter BASE (R9, R51; U18), as the number of the 256-byte page the platform chose for the window. Log entry 18. -/
opaque basePage : Nat

/-- BASE, the system address of offset 0x00: "a multiple of 256" (R51). -/
def base : Nat := 256 * basePage

end Sys2Proof.Config
end

