-- ==== Sys2Proof/Machine/Arith.lean ====
section
/-! DEFINITION. Word arithmetic beyond `+32`, `-32` and `^`: rotations (00_scope.md R12), byte lanes (20_memory.md R52) and
packing (R13). -/

namespace Sys2Proof.Machine

/-- `rotl32(v, n)`: the amount is taken modulo 32 (R12). -/
def rotl32 (v : Word) (n : Nat) : Word :=
  let s := n % 32
  if s = 0 then v else v <<< s ||| v >>> (32 - s)

/-- `rotr32(v, n)`: the amount is taken modulo 32 (R12). -/
def rotr32 (v : Word) (n : Nat) : Word :=
  let s := n % 32
  if s = 0 then v else v >>> s ||| v <<< (32 - s)

/-- `w[4:0]`, the bits of a word that a rotation amount uses (R12). -/
def low5 (w : Word) : Nat := (w.extractLsb' 0 5).toNat

/-- Byte lane `k` of a register: bits `[8k+7:8k]` (R19, R52). -/
def byteLane (w : Word) (k : Nat) : Byte := w.extractLsb' (8 * k) 8

/-- `pack4(b0, b1, b2, b3)` (R13). -/
def pack4 (b0 b1 b2 b3 : Byte) : Word :=
  b0.setWidth 32 ||| b1.setWidth 32 <<< 8 ||| b2.setWidth 32 <<< 16 ||| b3.setWidth 32 <<< 24

/-- `unpack4(w)`: the four bytes of a word, least significant first (R13). -/
def unpack4 (w : Word) : List Byte := [byteLane w 0, byteLane w 1, byteLane w 2, byteLane w 3]

end Sys2Proof.Machine
end

