-- ==== Sys2Proof/Machine/Cipher.lean ====
section
/-! DEFINITION. The function layer (00_scope.md): the Key Schedule Expander (41_key_schedule.md) and the Block Cipher Core
(42_block_cipher.md) as functions of their inputs, each built from the micro-steps the engine takes. A block is the pair of
its words 0 and 1, the halves A and B (R29). -/

namespace Sys2Proof.Machine

/-! ### Key Schedule Expander -/

/-- What a mixing step reads and writes (R122): the Key Table, the Key Words, the accumulators and the two cursors. -/
structure Mix where
  s : Vector Word 26
  l : Vector Word 4
  a : Word
  b : Word
  i : Fin 26
  j : Fin 4
deriving DecidableEq, Repr

/-- `S[n]`. Every use has `n ≤ 25` (R121, R148); past the table there is no word, and the 0 here stands for none (log entry
22). -/
def tableWord (t : Vector Word 26) (n : Nat) : Word := t[n]?.getD 0#32

/-- The word initialisation micro-step `n` writes into `S[n]` (R121): P first, then the word before it plus Q. -/
def initWord (t : Vector Word 26) (n : Nat) : Word :=
  if n = 0 then Config.magicP else tableWord t (n - 1) + Config.magicQ

/-- Initialisation micro-step `n`, for `n` from 0 to 25 (R121). -/
def initOne (t : Vector Word 26) (n : Nat) : Vector Word 26 := t.setIfInBounds n (initWord t n)

/-- The first `n` initialisation micro-steps, in increasing index order (R121). -/
def initSteps (t : Vector Word 26) : Nat → Vector Word 26
  | 0 => t
  | n + 1 => initOne (initSteps t n) n

/-- The Key Table after initialisation (R121). "The whole old content of S is overwritten". -/
def initTable (t : Vector Word 26) : Vector Word 26 := initSteps t Config.tableWords

/-- One mixing step (R122): A-then-B, the B update with the A just written in its sum and in its amount; then both cursors
advance, modulo 26 and modulo 4 (R123). -/
def mixOne (x : Mix) : Mix :=
  let a := rotl32 (x.s[x.i] + x.a + x.b) 3
  let b := rotl32 (x.l[x.j] + a + x.b) (low5 (a + x.b))
  { s := x.s.set x.i a, l := x.l.set x.j b, a := a, b := b, i := x.i + 1, j := x.j + 1 }

/-- The start of mixing: both accumulators 0 and both cursors 0 (R120, R123). -/
def mixStart (s : Vector Word 26) (l : Vector Word 4) : Mix := { s := s, l := l, a := 0, b := 0, i := 0, j := 0 }

/-- `n` mixing steps. -/
def mixSteps (x : Mix) : Nat → Mix
  | 0 => x
  | n + 1 => mixOne (mixSteps x n)

/-- The Key Table that EXPAND derives from the Key Words (R120, R125): initialisation, then 78 mixing steps. The table the
initialisation starts from does not matter (R121). -/
def expandKey (key : Vector Word 4) : Vector Word 26 :=
  (mixSteps (mixStart (initTable (Vector.replicate 26 0#32)) key) Config.mixSteps).s

/-! ### Block Cipher Core -/

/-- Initial whitening (R141). -/
def whiten (t : Vector Word 26) (p : Word × Word) : Word × Word := (p.1 + tableWord t 0, p.2 + tableWord t 1)

/-- Encode round `r` (R142): A first, then B with the A just written. -/
def encodeRound (t : Vector Word 26) (r : Nat) (x : Word × Word) : Word × Word :=
  let a := rotl32 (x.1 ^^^ x.2) (low5 x.2) + tableWord t (2 * r)
  let b := rotl32 (x.2 ^^^ a) (low5 a) + tableWord t (2 * r + 1)
  (a, b)

/-- `(A, B)` of ENCODE after its whitening and rounds 1 to `n` (R140). -/
def encodeAfter (t : Vector Word 26) (p : Word × Word) : Nat → Word × Word
  | 0 => whiten t p
  | n + 1 => encodeRound t (n + 1) (encodeAfter t p n)

/-- `encode(key_table, block)` (R140, R143). -/
def encodeBlock (t : Vector Word 26) (p : Word × Word) : Word × Word := encodeAfter t p Config.rounds

/-- Decode round `r` (R145): B first, with the round's starting A, then A with the B just written. -/
def decodeRound (t : Vector Word 26) (r : Nat) (x : Word × Word) : Word × Word :=
  let b := rotr32 (x.2 - tableWord t (2 * r + 1)) (low5 x.1) ^^^ x.1
  let a := rotr32 (x.1 - tableWord t (2 * r)) (low5 b) ^^^ b
  (a, b)

/-- `(A, B)` of DECODE after its first `n` rounds, rounds 12 down to `13 - n` (R144). -/
def decodeAfter (t : Vector Word 26) (c : Word × Word) : Nat → Word × Word
  | 0 => c
  | n + 1 => decodeRound t (Config.rounds - n) (decodeAfter t c n)

/-- Final un-whitening (R146). -/
def unwhiten (t : Vector Word 26) (x : Word × Word) : Word × Word := (x.1 - tableWord t 0, x.2 - tableWord t 1)

/-- `decode(key_table, block)` (R144, R146). -/
def decodeBlock (t : Vector Word 26) (c : Word × Word) : Word × Word :=
  unwhiten t (decodeAfter t c Config.rounds)

end Sys2Proof.Machine
end

