-- ==== Sys2Proof/Syntax.lean ====
section
/-! DEFINITION. The syntax of everything a host can ask of the block: one constructor of `Instr` for each of the 19 rows
of spec/opcode_table.json (30_encoding.md R75, R77, R78). -/

namespace Sys2Proof

/-- An access size: the SZ codes `00`, `01` and `10` (R71); `11` is reserved and names no size. -/
inductive Size where
  | byte | half | word
deriving DecidableEq, Repr

/-- An operation: what an accepted command starts (R19). -/
inductive Operation where
  | expand | encode | decode
deriving DecidableEq, Repr

/-- A legal command word (R75). -/
inductive Command where
  | nop
  | run (op : Operation)
deriving DecidableEq, Repr

/-- The kinds of bus error, codes 1 to 5 in this order (60_exceptions.md R161). -/
inductive BusErrorKind where
  | rsvdSize | unmapped | badSize | roWrite | misaligned
deriving DecidableEq, Repr

/-- The 15 BUS rows of R77, in the order of its table. -/
inductive BusRow where
  | rdCmd | wrCmd | rdStatus | wrStatus | rdParam | rdKey | wrKey | rdData | wrData
  | rdSLow | rdSMid | rdSHigh | wrSLow | wrSMid | wrSHigh
deriving DecidableEq, Repr

/-- An instruction of the block. A BUS row carries exactly the header bits its mask leaves open (the size, and the offset
within the row's range: `o` is OFF less the row's first offset) and, for a write, WDATA (R71, R72). A CMD row has no operand
(R74). -/
inductive Instr where
  /-- RD_CMD (R102). -/
  | rdCmd
  /-- WR_CMD (R103); WDATA is the command word. -/
  | wrCmd (wdata : Word)
  /-- RD_STATUS (R91). -/
  | rdStatus
  /-- WR_STATUS (R92). -/
  | wrStatus (wdata : Word)
  /-- RD_PARAM (R101), OFF = 0x08 + o. -/
  | rdParam (sz : Size) (o : BitVec 2)
  /-- RD_KEY (R98), OFF = 0x10 + o. -/
  | rdKey (sz : Size) (o : BitVec 4)
  /-- WR_KEY (R93), OFF = 0x10 + o. -/
  | wrKey (sz : Size) (o : BitVec 4) (wdata : Word)
  /-- RD_DATA (R100), OFF = 0x20 + o. -/
  | rdData (sz : Size) (o : BitVec 3)
  /-- WR_DATA (R94), OFF = 0x20 + o. -/
  | wrData (sz : Size) (o : BitVec 3) (wdata : Word)
  /-- RD_S (R96) on S[0..15], OFF = 0x40 + o. -/
  | rdSLow (sz : Size) (o : BitVec 6)
  /-- RD_S (R96) on S[16..23], OFF = 0x80 + o. -/
  | rdSMid (sz : Size) (o : BitVec 5)
  /-- RD_S (R96) on S[24..25], OFF = 0xA0 + o. -/
  | rdSHigh (sz : Size) (o : BitVec 3)
  /-- WR_S (R97) on S[0..15], OFF = 0x40 + o. -/
  | wrSLow (sz : Size) (o : BitVec 6) (wdata : Word)
  /-- WR_S (R97) on S[16..23], OFF = 0x80 + o. -/
  | wrSMid (sz : Size) (o : BitVec 5) (wdata : Word)
  /-- WR_S (R97) on S[24..25], OFF = 0xA0 + o. -/
  | wrSHigh (sz : Size) (o : BitVec 3) (wdata : Word)
  /-- NOP, the command word 0x00000000 (R105). -/
  | nop
  /-- EXPAND, the command word 0x00000001 (R120). -/
  | expand
  /-- ENCODE, the command word 0x00000002 (R140). -/
  | encode
  /-- DECODE, the command word 0x00000003 (R144). -/
  | decode
deriving DecidableEq, Repr

/-- The block's two formats (R70): a bus transaction (header and WDATA; a read's WDATA is no part of it and stands as 0),
or a command word. -/
inductive InstrWord where
  | bus (h : Header) (wdata : Word)
  | cmd (c : Word)
deriving DecidableEq, Repr

/-- Why a word is no instruction: a bus error of R161, or a command word that is not one of the four (R75, R76). -/
inductive DecodeError where
  | bus (kind : BusErrorKind)
  | illegalCommand
deriving DecidableEq, Repr

end Sys2Proof
end

