-- ==== Sys2Proof/Machine/State.lean ====
section
/-! DEFINITION. The state of the machine, as plain data. `Block` is what the spec gives one block instance (10_state.md R20);
`State` puts beside it what the model needs to run it: the inputs still to come, the responses given, and the number of the
next free byte. -/

namespace Sys2Proof.Machine

/-- The operation in progress (R36). -/
inductive Phase where
  | idle | expand | encode | decode
deriving DecidableEq, Repr

/-- The state of one block instance (R20). STATUS.BUSY is not stored: it is `phase ≠ IDLE` (R24). CMD holds no value (R22)
and PARAM is a constant (R27). -/
structure Block where
  /-- The engine phase (R36). -/
  phase : Phase
  /-- STATUS.DONE (R25). -/
  done : Bool
  /-- STATUS.ERR_CMD (R26). -/
  errCmd : Bool
  /-- STATUS.ERR_BUSY (R26). -/
  errBusy : Bool
  /-- KEY[0..3], the Secret Key (R28). -/
  key : Vector Word 4
  /-- The written bytes of KEY, lane by lane (R39). -/
  keyWritten : Vector Lanes 4
  /-- DATA[0..1], the Block (R29). -/
  data : Vector Word 2
  /-- The written bytes of DATA (R39). -/
  dataWritten : Vector Lanes 2
  /-- S[0..25], the Key Table (R30). -/
  s : Vector Word 26
  /-- The written bytes of S (R39). -/
  sWritten : Vector Lanes 26
  /-- L[0..3], the working Key Words, hidden (R34). -/
  l : Vector Word 4
  /-- The accumulator A, hidden (R35). -/
  a : Word
  /-- The accumulator B, hidden (R35). -/
  b : Word
  /-- Mixing steps done, hidden, 0..78 (R36). -/
  k : Nat
  /-- The Key Table cursor, hidden, 0..25 (R36). -/
  i : Fin 26
  /-- The Key Words cursor, hidden, 0..3 (R36). -/
  j : Fin 4
  /-- The round counter, hidden, 0..13 (R36). -/
  r : Nat
  /-- Initialisation micro-steps done, hidden, 0..26: the loop index of R121. DEDUCED, log entry 4. -/
  m : Nat
deriving DecidableEq, Repr

/-- The block right after reset (R38). The storage holds no defined value: every byte is unwritten, and a read or a use of
it faults. The zeros behind the marks, and in the hidden state R38 calls unspecified, are DESIGN CHOICES (log entries 2, 3
and 4). -/
def Block.reset : Block where
  phase := .idle
  done := false
  errCmd := false
  errBusy := false
  key := #v[0, 0, 0, 0]
  keyWritten := #v[0, 0, 0, 0]
  data := #v[0, 0]
  dataWritten := #v[0, 0]
  s := Vector.replicate 26 0
  sWritten := Vector.replicate 26 0
  l := #v[0, 0, 0, 0]
  a := 0
  b := 0
  k := 0
  i := 0
  j := 0
  r := 0
  m := 0

/-- What the block answers to one transaction (R71, R90, R161): OKAY with RDATA for a read, OKAY for a write, or ERROR with
what the model records of it, "(off, n, kind)" (R162); `size` is `none` for the reserved size code. Log entry 19. -/
inductive Response where
  | readOkay (rdata : Word)
  | writeOkay
  | error (off : Offset) (size : Option Size) (kind : BusErrorKind)
deriving DecidableEq, Repr

/-- What can happen next to the block: a host transaction (R60, R71), a turn of the engine (R109), or the reset input (R180). -/
inductive Input where
  | bus (h : Header) (wdata : Word)
  | engine
  | reset
deriving DecidableEq, Repr

/-- The machine: the block, and three fields of the MODEL's own (log entries 5, 6 and 8). -/
structure State where
  /-- The block (R20). -/
  block : Block
  /-- What happens next, oldest first. -/
  inputs : List Input
  /-- The responses given so far, newest first. -/
  trace : List Response
  /-- The number of the next free byte `draw()` (R16). -/
  drawIndex : Nat
deriving DecidableEq, Repr

/-- The machine right after reset: the block's reset values (R38), and nothing yet on the bus. -/
def State.reset : State where
  block := Block.reset
  inputs := []
  trace := []
  drawIndex := 0

/-- Why a run stops with a fault. Both are the spec's own treatment of unwritten bytes (00_scope.md R16;
40_bus_access.md R112; 60_exceptions.md R163; 93_implementation_defined.md U1, U2), and both are SAFE: the hardware goes on with bits the spec does not name. -/
inductive Fault where
  /-- Raised by RD_KEY, RD_DATA and RD_S: the access covers a byte that is unwritten since reset (R16, U1). Safe. -/
  | unwrittenRead (off : Offset) (sz : Size)
  /-- Raised by EXPAND, ENCODE and DECODE, and by the WR_CMD that carries one, at acceptance: an input byte of the operation
  is unwritten (U2; R112, R163). Safe. -/
  | unwrittenInput (op : Operation)
deriving DecidableEq, Repr

/-- Why a run stops with a refusal. -/
inductive Refusal where
  /-- An instruction without a meaning yet; raised by `exec`'s arms only, and by none of them now. Safe. -/
  | notModelled (mnemonic : String)
deriving DecidableEq, Repr

end Sys2Proof.Machine
end

