-- ==== Sys2Proof/Machine/Flags.lean ====
section
/-! DEFINITION. STATUS, the block's only flags (10_state.md R23 to R26, R32), and the written-ness marks (R39). -/

namespace Sys2Proof.Machine

/-- STATUS.BUSY: "1 exactly when `phase ≠ IDLE`" (R24). -/
def busy (blk : Block) : Bool := blk.phase != .idle

/-- The value a read of STATUS returns (R91): BUSY, DONE, ERR_CMD and ERR_BUSY in bits 0 to 3, zero above. -/
def statusWord (blk : Block) : Word :=
  0#28 ++ BitVec.ofBool blk.errBusy ++ BitVec.ofBool blk.errCmd ++ BitVec.ofBool blk.done ++ BitVec.ofBool (busy blk)

/-- A STATUS write of `v`: each of DONE, ERR_CMD and ERR_BUSY is cleared where its bit of `v` is set; bits 0 and 31:4 are
ignored, and nothing is ever set (R23, R92). -/
def clearStatus (v : Word) (blk : Block) : Block :=
  { blk with
    done := blk.done && !v.getLsbD 1
    errCmd := blk.errCmd && !v.getLsbD 2
    errBusy := blk.errBusy && !v.getLsbD 3 }

/-- The event ERR_BUSY (R99, R165). -/
def setErrBusy (blk : Block) : Block := { blk with errBusy := true }

/-- The event ERR_CMD (R164). -/
def setErrCmd (blk : Block) : Block := { blk with errCmd := true }

/-- All four lanes of a register. -/
def allLanes : Lanes := 0xF#4

/-- Every byte of the Secret Key is written (R112: EXPAND's inputs). -/
def keyReady (blk : Block) : Bool := blk.keyWritten.toList.all (· == allLanes)

/-- Every byte of the Block is written. -/
def dataReady (blk : Block) : Bool := blk.dataWritten.toList.all (· == allLanes)

/-- Every byte of the Key Table is written. -/
def tableReady (blk : Block) : Bool := blk.sWritten.toList.all (· == allLanes)

/-- The inputs of an operation are all written: EXPAND's are the 16 KEY bytes, ENCODE's and DECODE's the 8 DATA bytes and the
104 S bytes (R112). -/
def inputsReady (op : Operation) (blk : Block) : Bool :=
  match op with
  | .expand => keyReady blk
  | .encode => dataReady blk && tableReady blk
  | .decode => dataReady blk && tableReady blk

end Sys2Proof.Machine
end

