-- ==== Sys2Proof/Machine/Engine.lean ====
section
/-! DEFINITION. The engine: the micro-steps of the three operations on the block, and completion (40_bus_access.md R109, R110;
41_key_schedule.md R127; 42_block_cipher.md R151). Only the last micro-step of an operation ends it. -/

namespace Sys2Proof.Machine

/-- The two words of DATA, as the pair (A half, B half) (R29). -/
def dataPair (blk : Block) : Word × Word := (blk.data[0], blk.data[1])

/-- The end of an operation (R110): `phase <- IDLE`, so BUSY = 0, and `DONE <- 1`. ERR_CMD and ERR_BUSY are unchanged. -/
def finish (blk : Block) : Block := { blk with phase := .idle, done := true }

/-- `DATA[0] <- x.1; DATA[1] <- x.2`, every DATA byte written (R110). -/
def putData (x : Word × Word) (blk : Block) : Block :=
  { blk with data := #v[x.1, x.2], dataWritten := #v[allLanes, allLanes] }

/-- Every S byte written (R110). The words themselves are in S since their last micro-step (R125). Log entry 12. -/
def markTable (blk : Block) : Block := { blk with sWritten := Vector.replicate 26 allLanes }

/-- The engine's part of the block that mixing uses. -/
def mixOf (blk : Block) : Mix := { s := blk.s, l := blk.l, a := blk.a, b := blk.b, i := blk.i, j := blk.j }

/-- Put a mixing state back into the block. -/
def withMix (x : Mix) (blk : Block) : Block :=
  { blk with s := x.s, l := x.l, a := x.a, b := x.b, i := x.i, j := x.j }

/-- An EXPAND micro-step (R127): initialisation micro-step `m` while `m < 26`, and after the last of them the start of mixing
(R120: `A <- 0; B <- 0; i <- 0; j <- 0`, with k at 0; log entry 14); then a mixing step, the 78th of which completes. -/
def expandMicro (blk : Block) : Block :=
  if blk.m < Config.tableWords then
    let s := initOne blk.s blk.m
    if blk.m + 1 < Config.tableWords then { blk with s := s, m := blk.m + 1 }
    else { withMix (mixStart s blk.l) blk with m := blk.m + 1, k := 0 }
  else
    let next := { withMix (mixOne (mixOf blk)) blk with k := blk.k + 1 }
    if blk.k + 1 < Config.mixSteps then next else finish (markTable next)

/-- An ENCODE micro-step (R151): the whitening while `r = 0`, then round `r`; round 12 completes by writing DATA (R143). -/
def encodeMicro (blk : Block) : Block :=
  if blk.r = 0 then
    let x := whiten blk.s (dataPair blk)
    { blk with a := x.1, b := x.2, r := 1 }
  else
    let x := encodeRound blk.s blk.r (blk.a, blk.b)
    let next := { blk with a := x.1, b := x.2, r := blk.r + 1 }
    if blk.r < Config.rounds then next else finish (putData x next)

/-- A DECODE micro-step (R151): round `r` while `r > 0`, then the un-whitening, which completes (R146). -/
def decodeMicro (blk : Block) : Block :=
  if blk.r = 0 then finish (putData (unwhiten blk.s (blk.a, blk.b)) blk)
  else
    let x := decodeRound blk.s blk.r (blk.a, blk.b)
    { blk with a := x.1, b := x.2, r := blk.r - 1 }

/-- One engine step: the next micro-step of the running operation. "The engine takes no step while `phase = IDLE`" (R109). -/
def engineStep (blk : Block) : Block :=
  match blk.phase with
  | .idle => blk
  | .expand => expandMicro blk
  | .encode => encodeMicro blk
  | .decode => decodeMicro blk

/-- `start(EXPAND)`: `L[0..3] <- KEY[0..3]`, and the initialisation is to begin (R120). -/
def startExpand (blk : Block) : Block := { blk with phase := .expand, l := blk.key, m := 0 }

/-- `start(ENCODE)`: the whitening is to begin (R140). -/
def startEncode (blk : Block) : Block := { blk with phase := .encode, r := 0 }

/-- `start(DECODE)`: `A <- DATA[0]; B <- DATA[1]`, and round 12 is to begin (R144). -/
def startDecode (blk : Block) : Block :=
  { blk with phase := .decode, a := blk.data[0], b := blk.data[1], r := Config.rounds }

/-- `accept(op)`: DONE is cleared and the operation starts, in one atomic step (R104). -/
def accept (op : Operation) (blk : Block) : Block :=
  match op with
  | .expand => startExpand { blk with done := false }
  | .encode => startEncode { blk with done := false }
  | .decode => startDecode { blk with done := false }

end Sys2Proof.Machine
end

