-- ==== Sys2Proof/Decode.lean ====
section
/-! DEFINITION. Decoding, total on every header and every command word (30_encoding.md R70 to R78), and after it the encoder
written from the same tables. -/

namespace Sys2Proof

/-! ### The fields of a header (R71) -/

/-- `H = cat(WR, SZ, OFF)` (R71). -/
def mkHeader (wr : Bool) (sz : BitVec 2) (off : Offset) : Header := BitVec.ofBool wr ++ sz ++ off

/-- WR, bit 10: 1 is a write (R71). -/
def headerWr (h : Header) : Bool := h.getLsbD 10

/-- SZ, bits 9:8 (R71). -/
def headerSz (h : Header) : BitVec 2 := h.extractLsb' 8 2

/-- OFF, bits 7:0 (R71). -/
def headerOff (h : Header) : Offset := h.extractLsb' 0 8

/-- The size an SZ code names; the code `11` is reserved and names none (R71). -/
def Size.ofCode (c : BitVec 2) : Option Size :=
  if c = 0#2 then some .byte else if c = 1#2 then some .half else if c = 2#2 then some .word else none

/-- The SZ code of a size (R71). -/
def Size.code : Size → BitVec 2
  | .byte => 0#2
  | .half => 1#2
  | .word => 2#2

/-- `n`, the size in bytes (R71). -/
def Size.bytes : Size → Nat
  | .byte => 1
  | .half => 2
  | .word => 4

/-- Natural alignment, `off mod n = 0` (20_memory.md R55 (a)). -/
def aligned (sz : Size) (off : Offset) : Bool := off.toNat % sz.bytes == 0

/-- The offsets that belong to a register (20_memory.md R50). -/
def mapped (off : Offset) : Bool :=
  decide (off.toNat ≤ 0x0B) || (decide (0x10 ≤ off.toNat) && decide (off.toNat ≤ 0x27))
    || (decide (0x40 ≤ off.toNat) && decide (off.toNat ≤ 0xA7))

/-- The offsets of PARAM (20_memory.md R50). -/
def inParam (off : Offset) : Bool := decide (0x08 ≤ off.toNat) && decide (off.toNat ≤ 0x0B)

/-! ### The offset of each row's access, from the bits its mask leaves open (R50, R77) -/

/-- PARAM, 0x08 to 0x0B. -/
def paramOff (o : BitVec 2) : Offset := 0b000010#6 ++ o

/-- KEY, 0x10 to 0x1F. -/
def keyOff (o : BitVec 4) : Offset := 0b0001#4 ++ o

/-- DATA, 0x20 to 0x27. -/
def dataOff (o : BitVec 3) : Offset := 0b00100#5 ++ o

/-- S[0..15], 0x40 to 0x7F. -/
def sLowOff (o : BitVec 6) : Offset := 0b01#2 ++ o

/-- S[16..23], 0x80 to 0x9F. -/
def sMidOff (o : BitVec 5) : Offset := 0b100#3 ++ o

/-- S[24..25], 0xA0 to 0xA7. -/
def sHighOff (o : BitVec 3) : Offset := 0b10100#5 ++ o

/-! ### The BUS rows (R77) -/

/-- The match value of a row (R77). -/
def BusRow.pattern : BusRow → Header
  | .rdCmd => 0x200#11
  | .wrCmd => 0x600#11
  | .rdStatus => 0x204#11
  | .wrStatus => 0x604#11
  | .rdParam => 0x008#11
  | .rdKey => 0x010#11
  | .wrKey => 0x410#11
  | .rdData => 0x020#11
  | .wrData => 0x420#11
  | .rdSLow => 0x040#11
  | .rdSMid => 0x080#11
  | .rdSHigh => 0x0A0#11
  | .wrSLow => 0x440#11
  | .wrSMid => 0x480#11
  | .wrSHigh => 0x4A0#11

/-- The mask of a row (R77). -/
def BusRow.mask : BusRow → Header
  | .rdCmd => 0x7FF#11
  | .wrCmd => 0x7FF#11
  | .rdStatus => 0x7FF#11
  | .wrStatus => 0x7FF#11
  | .rdParam => 0x4FC#11
  | .rdKey => 0x4F0#11
  | .wrKey => 0x4F0#11
  | .rdData => 0x4F8#11
  | .wrData => 0x4F8#11
  | .rdSLow => 0x4C0#11
  | .rdSMid => 0x4E0#11
  | .rdSHigh => 0x4F8#11
  | .wrSLow => 0x4C0#11
  | .wrSMid => 0x4E0#11
  | .wrSHigh => 0x4F8#11

/-- All 15 rows (R77, R78). -/
def busRows : List BusRow :=
  [.rdCmd, .wrCmd, .rdStatus, .wrStatus, .rdParam, .rdKey, .wrKey, .rdData, .wrData,
   .rdSLow, .rdSMid, .rdSHigh, .wrSLow, .wrSMid, .wrSHigh]

/-- `(H & mask) = match` (R77 step 2). -/
def BusRow.covers (row : BusRow) (h : Header) : Bool := h &&& row.mask == row.pattern

/-- The instruction of a row, with the header's size, the offset bits the row's mask leaves open, and WDATA. -/
def BusRow.instr (row : BusRow) (sz : Size) (off : Offset) (wdata : Word) : Instr :=
  match row with
  | .rdCmd => .rdCmd
  | .wrCmd => .wrCmd wdata
  | .rdStatus => .rdStatus
  | .wrStatus => .wrStatus wdata
  | .rdParam => .rdParam sz (off.extractLsb' 0 2)
  | .rdKey => .rdKey sz (off.extractLsb' 0 4)
  | .wrKey => .wrKey sz (off.extractLsb' 0 4) wdata
  | .rdData => .rdData sz (off.extractLsb' 0 3)
  | .wrData => .wrData sz (off.extractLsb' 0 3) wdata
  | .rdSLow => .rdSLow sz (off.extractLsb' 0 6)
  | .rdSMid => .rdSMid sz (off.extractLsb' 0 5)
  | .rdSHigh => .rdSHigh sz (off.extractLsb' 0 3)
  | .wrSLow => .wrSLow sz (off.extractLsb' 0 6) wdata
  | .wrSMid => .wrSMid sz (off.extractLsb' 0 5) wdata
  | .wrSHigh => .wrSHigh sz (off.extractLsb' 0 3) wdata

/-- The kind of error of a header that matches no row (R77 step 2). -/
def noRowKind (h : Header) : BusErrorKind :=
  if mapped (headerOff h) then (if inParam (headerOff h) then .roWrite else .badSize) else .unmapped

/-- The code of a kind of bus error (60_exceptions.md R161). -/
def BusErrorKind.code : BusErrorKind → Nat
  | .rsvdSize => 1
  | .unmapped => 2
  | .badSize => 3
  | .roWrite => 4
  | .misaligned => 5

/-- The bus decoder: the steps of R77 in their order. -/
def decodeBus (h : Header) (wdata : Word) : Except BusErrorKind Instr :=
  match Size.ofCode (headerSz h) with
  | none => .error .rsvdSize
  | some sz =>
    match busRows.find? (fun row => row.covers h) with
    | none => .error (noRowKind h)
    | some row =>
      if aligned sz (headerOff h) then .ok (row.instr sz (headerOff h) wdata) else .error .misaligned

/-! ### The CMD words (R74, R75) -/

/-- The command a word names: "legal only if it equals one of these exactly" (R75). -/
def decodeCommand (c : Word) : Option Command :=
  if c = 0#32 then some .nop
  else if c = 1#32 then some (.run .expand)
  else if c = 2#32 then some (.run .encode)
  else if c = 3#32 then some (.run .decode)
  else none

/-- A command as an instruction. -/
def Command.instr : Command → Instr
  | .nop => .nop
  | .run .expand => .expand
  | .run .encode => .encode
  | .run .decode => .decode

/-- The word of a command (R75). -/
def Command.word : Command → Word
  | .nop => 0#32
  | .run .expand => 1#32
  | .run .encode => 2#32
  | .run .decode => 3#32

/-- The whole decoder, over both formats (R70, R78). -/
def decode : InstrWord → Except DecodeError Instr
  | .bus h wdata =>
    match decodeBus h wdata with
    | .ok i => .ok i
    | .error kind => .error (.bus kind)
  | .cmd c =>
    match decodeCommand c with
    | some cmd => .ok cmd.instr
    | none => .error .illegalCommand

/-- The bus transaction that carries a word: "A CMD word is carried as the WDATA of a BUS write to offset 0x00" (R70),
the header 0x600 of WR_CMD (R77). -/
def InstrWord.carrier : InstrWord → Header × Word
  | .bus h wdata => (h, wdata)
  | .cmd c => (0x600#11, c)

/-! ### The encoder -/

/-- The bus word of a read. -/
def encodeRead (sz : Size) (off : Offset) : InstrWord := .bus (mkHeader false sz.code off) 0#32

/-- The bus word of a write. -/
def encodeWrite (sz : Size) (off : Offset) (wdata : Word) : InstrWord := .bus (mkHeader true sz.code off) wdata

/-- The word of an instruction, from the tables of R75 and R77 and the fields of R71. -/
def encode : Instr → InstrWord
  | .rdCmd => encodeRead .word 0x00#8
  | .wrCmd wdata => encodeWrite .word 0x00#8 wdata
  | .rdStatus => encodeRead .word 0x04#8
  | .wrStatus wdata => encodeWrite .word 0x04#8 wdata
  | .rdParam sz o => encodeRead sz (paramOff o)
  | .rdKey sz o => encodeRead sz (keyOff o)
  | .wrKey sz o wdata => encodeWrite sz (keyOff o) wdata
  | .rdData sz o => encodeRead sz (dataOff o)
  | .wrData sz o wdata => encodeWrite sz (dataOff o) wdata
  | .rdSLow sz o => encodeRead sz (sLowOff o)
  | .rdSMid sz o => encodeRead sz (sMidOff o)
  | .rdSHigh sz o => encodeRead sz (sHighOff o)
  | .wrSLow sz o wdata => encodeWrite sz (sLowOff o) wdata
  | .wrSMid sz o wdata => encodeWrite sz (sMidOff o) wdata
  | .wrSHigh sz o wdata => encodeWrite sz (sHighOff o) wdata
  | .nop => .cmd Command.nop.word
  | .expand => .cmd (Command.run .expand).word
  | .encode => .cmd (Command.run .encode).word
  | .decode => .cmd (Command.run .decode).word

/-! ### The words of spec/opcode_table.json, as numbers -/

/-- The word a number stands for, its bits as the table numbers them. A row of 32 bits is a command word (R74). Any other
width is a bus transaction: the 11-bit header in the first 16 bits, whose five spare bits must be 0, then the 32 bits of
WDATA. Log entry 21. -/
def instrWordOfTable (nbits w : Nat) : Option InstrWord :=
  if nbits = 32 then
    if w < 2 ^ 32 then some (.cmd (BitVec.ofNat 32 w)) else none
  else if w / 2 ^ 11 % 2 ^ 5 = 0 ∧ w < 2 ^ 48 then some (.bus (BitVec.ofNat 11 w) (BitVec.ofNat 32 (w / 2 ^ 16)))
  else none

/-- The instruction the decoder reads from a word of the table; `none` where it refuses. -/
def decodeTableWord (nbits w : Nat) : Option Instr :=
  match instrWordOfTable nbits w with
  | none => none
  | some iw =>
    match decode iw with
    | .ok i => some i
    | .error _ => none

end Sys2Proof
end

