-- ==== Sys2Proof/Machine/Operands.lean ====
section
/-! DEFINITION. The operand forms: the byte lanes an access covers, write data and read data on their lanes (30_encoding.md
R72, R73; 20_memory.md R52 to R54), and the register a row's offset selects (20_memory.md R50). -/

namespace Sys2Proof.Machine

/-- The lane of an access's lowest byte, `off mod 4`. -/
def laneOf (off : Offset) : Nat := off.toNat % 4

/-- `n` byte lanes from lane 0. -/
def lowLanes : Size → Lanes
  | .byte => 0b0001#4
  | .half => 0b0011#4
  | .word => 0b1111#4

/-- The byte lanes an access of `n` bytes at `off` covers: `off mod 4` and the `n - 1` above it. An aligned access stays
within its register (R55). -/
def accessLanes (sz : Size) (off : Offset) : Lanes := lowLanes sz <<< laneOf off

/-- The covered lanes of `new`, and the other lanes of `old` (R54, R72: the bytes travel on the lanes of their own addresses,
and a register's other lanes are unchanged). -/
def mergeLanes (lanes : Lanes) (new old : Word) : Word :=
  pack4 (if lanes.getLsbD 0 then byteLane new 0 else byteLane old 0)
    (if lanes.getLsbD 1 then byteLane new 1 else byteLane old 1)
    (if lanes.getLsbD 2 then byteLane new 2 else byteLane old 2)
    (if lanes.getLsbD 3 then byteLane new 3 else byteLane old 3)

/-- RDATA of a register's value: the covered lanes, and 0 on the others (R53, R73). -/
def readLanes (lanes : Lanes) (value : Word) : Word := mergeLanes lanes value 0#32

/-- `MemRead(off, n)` as R53 assembles it, from the byte at each offset: the sum of `byte(off + m) << 8m` for `m` below `n`. -/
def memRead (byteAt : Nat → Byte) : Nat → Word
  | 0 => 0#32
  | n + 1 => memRead byteAt n + (byteAt n).setWidth 32 <<< (8 * n)

/-- `v`, the value of a bus write of `n` bytes at `off`: `WDATA[8(off mod 4) + 8n - 1 : 8(off mod 4)]` (R72). -/
def writeValue (sz : Size) (off : Offset) (wdata : Word) : Word :=
  (wdata >>> (8 * laneOf off)).extractLsb' 0 (8 * sz.bytes) |>.setWidth 32

/-- `t`, the value a host takes from RDATA: the inverse of R73's placement. -/
def readValue (sz : Size) (off : Offset) (rdata : Word) : Word := writeValue sz off rdata

/-- The register a KEY offset selects, `(off - 0x10) div 4` (R50). -/
def keyIndex (o : BitVec 4) : Fin 4 := ⟨o.toNat / 4, by omega⟩

/-- The register a DATA offset selects, `(off - 0x20) div 4` (R50). -/
def dataIndex (o : BitVec 3) : Fin 2 := ⟨o.toNat / 4, by omega⟩

/-- The word of S an offset from 0x40 selects, `(off - 0x40) div 4` (R50). -/
def sLowIndex (o : BitVec 6) : Fin 26 := ⟨o.toNat / 4, by omega⟩

/-- The word of S an offset from 0x80 selects: S[16] is at 0x80 (R50). -/
def sMidIndex (o : BitVec 5) : Fin 26 := ⟨16 + o.toNat / 4, by omega⟩

/-- The word of S an offset from 0xA0 selects: S[24] is at 0xA0 (R50). -/
def sHighIndex (o : BitVec 3) : Fin 26 := ⟨24 + o.toNat / 4, by omega⟩

end Sys2Proof.Machine
end

