-- ==== Sys2Proof/Machine/Ops.lean ====
section
/-! DEFINITION. The named operations over the state that the meanings share: answering a transaction, raising a bus error,
reading and writing a register's lanes, dropping a write while busy, issuing a command, a turn of the engine, the reset
input. -/

namespace Sys2Proof.Machine

/-- RDATA of a response: 0 on an ERROR response (R73), and on a write's OKAY, which carries none. -/
def rdataOf : Response → Word
  | .readOkay rdata => rdata
  | .writeOkay => 0#32
  | .error _ _ _ => 0#32

/-- Give a response. -/
def respond (r : Response) (s : State) : State := { s with trace := r :: s.trace }

/-- Change the block. -/
def onBlock (f : Block → Block) (s : State) : State := { s with block := f s.block }

/-- `raise BusError(off, n, kind)`, the one exception of the machine (R15, R161): the response is ERROR and no register,
storage byte, written-ness mark, status bit or engine state changes. The block saves nothing and goes nowhere (R162, R170); there
is no return from it (R171). -/
def raiseBusError (off : Offset) (size : Option Size) (kind : BusErrorKind) (s : State) : State :=
  respond (.error off size kind) s

/-- The rules of an access apply "only to a transaction that passed decoding" (R90): where an access is not aligned, it is the
bus error MISALIGNED whatever else holds (R77 step 3, R167). -/
def guardAligned (sz : Size) (off : Offset) (s : State) (result : Host.Outcome State Fault Refusal) :
    Host.Outcome State Fault Refusal :=
  if aligned sz off then result else .next (raiseBusError off (some sz) .misaligned s)

/-- A read that changes nothing and answers with a register's value on the lanes it covers (R57, R73). -/
def readConstant (sz : Size) (off : Offset) (value : Word) (s : State) : Host.Outcome State Fault Refusal :=
  guardAligned sz off s (.next (respond (.readOkay (readLanes (accessLanes sz off) value)) s))

/-- Every lane of `lanes` is marked in `written`. -/
def lanesWritten (lanes written : Lanes) : Bool := lanes &&& ~~~written == 0#4

/-- A read of storage: the stored bytes, or the model fault U1 where one of them is unwritten: R16 says how a model treats a read of
one, "it faults" (R39; D18; test vector V15). -/
def readStored (sz : Size) (off : Offset) (value : Word) (written : Lanes) (s : State) :
    Host.Outcome State Fault Refusal :=
  guardAligned sz off s
    (if lanesWritten (accessLanes sz off) written then
      .next (respond (.readOkay (readLanes (accessLanes sz off) value)) s)
    else .fault (.unwrittenRead off sz))

/-- A word of four free bytes, one for each lane (R16). -/
def drawWord (n : Nat) : Word :=
  pack4 (Config.drawByte n) (Config.drawByte (n + 1)) (Config.drawByte (n + 2)) (Config.drawByte (n + 3))

/-- A read of storage that the running operation writes: "every byte returned ... is `draw()`" (R95). It changes no state of the
block (U3); the counter moves on so that the next draw is another one. Log entry 24. -/
def readDrawn (sz : Size) (off : Offset) (s : State) : Host.Outcome State Fault Refusal :=
  guardAligned sz off s
    (.next (respond (.readOkay (readLanes (accessLanes sz off) (drawWord s.drawIndex)))
      { s with drawIndex := s.drawIndex + 4 }))

/-- Write the covered lanes of `KEY[idx]` from WDATA and mark them written (R54, R93). -/
def storeKey (idx : Fin 4) (lanes : Lanes) (wdata : Word) (blk : Block) : Block :=
  { blk with
    key := blk.key.set idx (mergeLanes lanes wdata blk.key[idx])
    keyWritten := blk.keyWritten.set idx (blk.keyWritten[idx] ||| lanes) }

/-- Write the covered lanes of `DATA[idx]` from WDATA and mark them written (R54, R94). -/
def storeData (idx : Fin 2) (lanes : Lanes) (wdata : Word) (blk : Block) : Block :=
  { blk with
    data := blk.data.set idx (mergeLanes lanes wdata blk.data[idx])
    dataWritten := blk.dataWritten.set idx (blk.dataWritten[idx] ||| lanes) }

/-- Write the covered lanes of `S[idx]` from WDATA and mark them written (R54, R97). -/
def storeTable (idx : Fin 26) (lanes : Lanes) (wdata : Word) (blk : Block) : Block :=
  { blk with
    s := blk.s.set idx (mergeLanes lanes wdata blk.s[idx])
    sWritten := blk.sWritten.set idx (blk.sWritten[idx] ||| lanes) }

/-- A write while busy: dropped, its one effect `STATUS.ERR_BUSY <- 1`, the response OKAY (R99, R165). -/
def dropWrite (s : State) : State := respond .writeOkay (onBlock setErrBusy s)

/-- A write to storage: dropped while busy, performed by `store` otherwise (R93, R94, R97). -/
def writeStored (sz : Size) (off : Offset) (store : Block → Block) (s : State) : Host.Outcome State Fault Refusal :=
  guardAligned sz off s
    (.next (if busy s.block then dropWrite s else respond .writeOkay (onBlock store s)))

/-- Accept an operation while not busy (R104), or the model fault U2 where an input byte is unwritten: "it faults at acceptance"
(R112, R163; D18; test vectors V15 and P5). -/
def acceptOperation (op : Operation) (s : State) : Host.Outcome State Fault Refusal :=
  if inputsReady op s.block then .next (respond .writeOkay (onBlock (accept op) s)) else .fault (.unwrittenInput op)

/-- A write to CMD, by what its word names; `none` is an illegal word (R103). While busy the word is not decoded (R99). -/
def issueCommand (cmd : Option Command) (s : State) : Host.Outcome State Fault Refusal :=
  if busy s.block then .next (dropWrite s)
  else
    match cmd with
    | none => .next (respond .writeOkay (onBlock setErrCmd s))
    | some .nop => .next (respond .writeOkay s)
    | some (.run op) => acceptOperation op s

/-- A turn of the engine (R109). -/
def engineTurn (s : State) : State := onBlock engineStep s

/-- The reset input: one atomic transition that sets every item of the block to its reset value (R180). Log entry 15. -/
def resetTurn (s : State) : State := onBlock (fun _ => Block.reset) s

/-- The byte a register holds at an offset of KEY, DATA or S, where it is written; `none` at any other offset and for an
unwritten byte (R39, R50, R52). -/
def storedByte (blk : Block) (off : Offset) : Option Byte :=
  let lane := laneOf off
  let pick (value : Option Word) (written : Option Lanes) : Option Byte :=
    if (written.getD 0#4).getLsbD lane then value.map (byteLane · lane) else none
  if off.toNat < 0x10 then none
  else if off.toNat < 0x20 then pick blk.key[(off.toNat - 0x10) / 4]? blk.keyWritten[(off.toNat - 0x10) / 4]?
  else if off.toNat < 0x28 then pick blk.data[(off.toNat - 0x20) / 4]? blk.dataWritten[(off.toNat - 0x20) / 4]?
  else if off.toNat < 0x40 then none
  else pick blk.s[(off.toNat - 0x40) / 4]? blk.sWritten[(off.toNat - 0x40) / 4]?

end Sys2Proof.Machine
end

