-- ==== Sys2Proof/Machine/BusRead.lean ====
section
/-! DEFINITION. The meanings of the read rows (40_bus_access.md R91, R96, R98, R100, R101, R102). No read has a side effect on
the block (20_memory.md R57). -/

namespace Sys2Proof.Machine

/-- RD_CMD: "`t <- 0x00000000`"; it starts nothing (R102). -/
def execRdCmd (s : State) : Host.Outcome State Fault Refusal := readConstant .word 0x00#8 0#32 s

/-- RD_STATUS: the four status bits; it clears nothing (R91). -/
def execRdStatus (s : State) : Host.Outcome State Fault Refusal := readConstant .word 0x04#8 (statusWord s.block) s

/-- RD_PARAM: bytes of the constant 0x01100C20, busy or not (R101). -/
def execRdParam (sz : Size) (o : BitVec 2) (s : State) : Host.Outcome State Fault Refusal :=
  readConstant sz (paramOff o) Config.paramValue s

/-- RD_KEY: the stored bytes, busy or not (R98). -/
def execRdKey (sz : Size) (o : BitVec 4) (s : State) : Host.Outcome State Fault Refusal :=
  readStored sz (keyOff o) s.block.key[keyIndex o] s.block.keyWritten[keyIndex o] s

/-- RD_DATA: the stored bytes, and free bytes while ENCODE or DECODE runs (R95, R100). -/
def execRdData (sz : Size) (o : BitVec 3) (s : State) : Host.Outcome State Fault Refusal :=
  if s.block.phase = .encode ∨ s.block.phase = .decode then readDrawn sz (dataOff o) s
  else readStored sz (dataOff o) s.block.data[dataIndex o] s.block.dataWritten[dataIndex o] s

/-- A read of `S[idx]`: the stored bytes, and free bytes while EXPAND runs (R95, R96). -/
def readTable (sz : Size) (off : Offset) (idx : Fin 26) (s : State) : Host.Outcome State Fault Refusal :=
  if s.block.phase = .expand then readDrawn sz off s
  else readStored sz off s.block.s[idx] s.block.sWritten[idx] s

/-- RD_S on S[0..15] (R96). -/
def execRdSLow (sz : Size) (o : BitVec 6) (s : State) : Host.Outcome State Fault Refusal :=
  readTable sz (sLowOff o) (sLowIndex o) s

/-- RD_S on S[16..23] (R96). -/
def execRdSMid (sz : Size) (o : BitVec 5) (s : State) : Host.Outcome State Fault Refusal :=
  readTable sz (sMidOff o) (sMidIndex o) s

/-- RD_S on S[24..25] (R96). -/
def execRdSHigh (sz : Size) (o : BitVec 3) (s : State) : Host.Outcome State Fault Refusal :=
  readTable sz (sHighOff o) (sHighIndex o) s

end Sys2Proof.Machine
end

