-- ==== Sys2Proof/Machine/BusWrite.lean ====
section
/-! DEFINITION. The meanings of the write rows (40_bus_access.md R92 to R94, R97, R103). A transaction that passed decoding is
answered OKAY, a dropped one too (R90). -/

namespace Sys2Proof.Machine

/-- WR_CMD: dropped while busy; otherwise the command the word names, or ERR_CMD (R103). -/
def execWrCmd (wdata : Word) (s : State) : Host.Outcome State Fault Refusal := issueCommand (decodeCommand wdata) s

/-- WR_STATUS: clears the bits written as 1, busy or not, and never sets ERR_BUSY (R92, R99). -/
def execWrStatus (wdata : Word) (s : State) : Host.Outcome State Fault Refusal :=
  .next (respond .writeOkay (onBlock (clearStatus wdata) s))

/-- WR_KEY (R93). -/
def execWrKey (sz : Size) (o : BitVec 4) (wdata : Word) (s : State) : Host.Outcome State Fault Refusal :=
  writeStored sz (keyOff o) (storeKey (keyIndex o) (accessLanes sz (keyOff o)) wdata) s

/-- WR_DATA (R94). -/
def execWrData (sz : Size) (o : BitVec 3) (wdata : Word) (s : State) : Host.Outcome State Fault Refusal :=
  writeStored sz (dataOff o) (storeData (dataIndex o) (accessLanes sz (dataOff o)) wdata) s

/-- WR_S on S[0..15] (R97). -/
def execWrSLow (sz : Size) (o : BitVec 6) (wdata : Word) (s : State) : Host.Outcome State Fault Refusal :=
  writeStored sz (sLowOff o) (storeTable (sLowIndex o) (accessLanes sz (sLowOff o)) wdata) s

/-- WR_S on S[16..23] (R97). -/
def execWrSMid (sz : Size) (o : BitVec 5) (wdata : Word) (s : State) : Host.Outcome State Fault Refusal :=
  writeStored sz (sMidOff o) (storeTable (sMidIndex o) (accessLanes sz (sMidOff o)) wdata) s

/-- WR_S on S[24..25] (R97). -/
def execWrSHigh (sz : Size) (o : BitVec 3) (wdata : Word) (s : State) : Host.Outcome State Fault Refusal :=
  writeStored sz (sHighOff o) (storeTable (sHighIndex o) (accessLanes sz (sHighOff o)) wdata) s

end Sys2Proof.Machine
end

