-- ==== Sys2Proof/Machine/Commands.lean ====
section
/-! DEFINITION. The meanings of the CMD rows (R105, R120, R140, R144): each is the write of its word to CMD, the transaction that
carries it (30_encoding.md R70). The operation's micro-steps are the engine's (Machine/Engine.lean). -/

namespace Sys2Proof.Machine

/-- NOP: no effect; while busy it is a write while busy (R105). -/
def execNop (s : State) : Host.Outcome State Fault Refusal := issueCommand (some .nop) s

/-- EXPAND: derive the Key Table from the Secret Key (R120). -/
def execExpand (s : State) : Host.Outcome State Fault Refusal := issueCommand (some (.run .expand)) s

/-- ENCODE: encrypt the Block in DATA with the Key Table in S (R140). -/
def execEncode (s : State) : Host.Outcome State Fault Refusal := issueCommand (some (.run .encode)) s

/-- DECODE: decrypt the Block in DATA with the Key Table in S (R144). -/
def execDecode (s : State) : Host.Outcome State Fault Refusal := issueCommand (some (.run .decode)) s

end Sys2Proof.Machine
end

