-- ==== Sys2Proof/Machine/Dispatch.lean ====
section
/-! DEFINITION. The meaning of every instruction: one arm for each row of spec/opcode_table.json. -/

namespace Sys2Proof.Machine

/-- What an instruction does to the machine. -/
def exec (i : Instr) (s : State) : Host.Outcome State Fault Refusal :=
  match i with
  | .rdCmd => Sys2Proof.Machine.execRdCmd s
  | .wrCmd wdata => Sys2Proof.Machine.execWrCmd wdata s
  | .rdStatus => Sys2Proof.Machine.execRdStatus s
  | .wrStatus wdata => Sys2Proof.Machine.execWrStatus wdata s
  | .rdParam sz o => Sys2Proof.Machine.execRdParam sz o s
  | .rdKey sz o => Sys2Proof.Machine.execRdKey sz o s
  | .wrKey sz o wdata => Sys2Proof.Machine.execWrKey sz o wdata s
  | .rdData sz o => Sys2Proof.Machine.execRdData sz o s
  | .wrData sz o wdata => Sys2Proof.Machine.execWrData sz o wdata s
  | .rdSLow sz o => Sys2Proof.Machine.execRdSLow sz o s
  | .rdSMid sz o => Sys2Proof.Machine.execRdSMid sz o s
  | .rdSHigh sz o => Sys2Proof.Machine.execRdSHigh sz o s
  | .wrSLow sz o wdata => Sys2Proof.Machine.execWrSLow sz o wdata s
  | .wrSMid sz o wdata => Sys2Proof.Machine.execWrSMid sz o wdata s
  | .wrSHigh sz o wdata => Sys2Proof.Machine.execWrSHigh sz o wdata s
  | .nop => Sys2Proof.Machine.execNop s
  | .expand => Sys2Proof.Machine.execExpand s
  | .encode => Sys2Proof.Machine.execEncode s
  | .decode => Sys2Proof.Machine.execDecode s

end Sys2Proof.Machine
end

