-- ==== Sys2Proof/Machine/Step.lean ====
section
/-! DEFINITION. One transition of the machine (20_memory.md R62): the next input, whichever agent it moves. -/

namespace Sys2Proof.Machine

/-- One step: the oldest input is taken off and performed. A bus transaction is decoded, and either its instruction runs or it is
a bus error (R90); an engine turn is the next micro-step (R109); a reset is R180's transition. With no input left the engine
takes its step, if it has one ("an enabled engine step is eventually taken", R192); an idle block with no input stays as it is.
Log entries 6 and 7. -/
def step (s : State) : Host.Outcome State Fault Refusal :=
  match s.inputs with
  | [] => .next (engineTurn s)
  | .engine :: rest => .next (engineTurn { s with inputs := rest })
  | .reset :: rest => .next (resetTurn { s with inputs := rest })
  | .bus h wdata :: rest =>
    match decodeBus h wdata with
    | .ok i => exec i { s with inputs := rest }
    | .error kind =>
      .next (raiseBusError (headerOff h) (Size.ofCode (headerSz h)) kind { s with inputs := rest })

/-- `s` with a word of the opcode table as the very next thing on the bus: its carrying transaction (R70) before every other
input. A number that is no word of the table puts nothing there. Log entry 9. -/
def State.withFetchWord (s : State) (nbits w : Nat) : State :=
  match instrWordOfTable nbits w with
  | none => s
  | some iw => { s with inputs := .bus iw.carrier.1 iw.carrier.2 :: s.inputs }

end Sys2Proof.Machine
end

