-- ==== Sys2Proof/Machine/HostPort.lean ====
section
/-! DEFINITION. How a host's accesses become transactions: system addresses and byte strobes (20_memory.md R51, 30_encoding.md
R71), the host syntax of R81 and the pseudo-instructions of R82. A host's variables, conditions and branches, and so the loop of
`wait`, are outside the block (R81). -/

namespace Sys2Proof.Machine

/-- The system address of an offset, `BASE + off` (R51). -/
def systemAddress (off : Offset) : Nat := Config.base + off.toNat

/-- OFF of a system address: "the block decodes only the 8 offset bits", address bits 7:0 (R51, R71). -/
def offsetOf (addr : Nat) : Offset := BitVec.ofNat 8 addr

/-- SZ of a concrete write's byte strobes: the count of one naturally aligned run of 1, 2 or 4 bytes, and `11` for any other
pattern (R71). -/
def strobeSize (strobes : Lanes) : BitVec 2 :=
  if strobes = 0b0001#4 ∨ strobes = 0b0010#4 ∨ strobes = 0b0100#4 ∨ strobes = 0b1000#4 then 0#2
  else if strobes = 0b0011#4 ∨ strobes = 0b1100#4 then 1#2
  else if strobes = 0b1111#4 then 2#2
  else 3#2

/-- A concrete write: its address, strobes and data bus, as a transaction (R71). -/
def strobedWrite (addr : Nat) (strobes : Lanes) (wdata : Word) : Input :=
  .bus (mkHeader true (strobeSize strobes) (offsetOf addr)) wdata

/-- `wr8 / wr16 / wr32 off, v`: WDATA is `v << 8(off mod 4)` (R81). -/
def hostWrite (sz : Size) (off : Offset) (v : Word) : Input :=
  .bus (mkHeader true sz.code off) (v <<< (8 * laneOf off))

/-- `rd8 / rd16 / rd32 off -> t` (R81). -/
def hostRead (sz : Size) (off : Offset) : Input := .bus (mkHeader false sz.code off) 0#32

/-- `cmd NOP / EXPAND / ENCODE / DECODE` (R82). -/
def hostCommand (cmd : Command) : Input := hostWrite .word 0x00#8 cmd.word

/-- One poll of `wait`: `rd32 0x04 -> t` (R82). -/
def hostPoll : Input := hostRead .word 0x04#8

/-- `clrst m` (R82). -/
def hostClearStatus (v : Word) : Input := hostWrite .word 0x04#8 v

/-- The words of a byte sequence written one after another from `off` (R82). -/
def hostLoad (off : Offset) : List Word → List Input
  | [] => []
  | w :: rest => hostWrite .word off w :: hostLoad (off + 4#8) rest

/-- `ldkey b0 .. b15`: four word writes from 0x10 (R82). -/
def hostLoadKey (b : Vector Byte 16) : List Input :=
  hostLoad 0x10#8
    [pack4 b[0] b[1] b[2] b[3], pack4 b[4] b[5] b[6] b[7], pack4 b[8] b[9] b[10] b[11], pack4 b[12] b[13] b[14] b[15]]

/-- `ldblk b0 .. b7`: two word writes from 0x20 (R82). -/
def hostLoadBlock (b : Vector Byte 8) : List Input :=
  hostLoad 0x20#8 [pack4 b[0] b[1] b[2] b[3], pack4 b[4] b[5] b[6] b[7]]

/-- `n` word reads, one after another from `off` (R82). -/
def hostDump (off : Offset) : Nat → List Input
  | 0 => []
  | n + 1 => hostRead .word off :: hostDump (off + 4#8) n

/-- `rdblk` (R82). -/
def hostReadBlock : List Input := hostDump 0x20#8 2

/-- `rdtab` (R82). -/
def hostReadTable : List Input := hostDump 0x40#8 Config.tableWords

end Sys2Proof.Machine
end

