-- ==== Sys2Proof/Machine/Packing.lean ====
section
/-! DEFINITION. Word packing (40_bus_access.md R106, R107): the document's two readings of `bytes_to_words`, and its inverse. The
block itself packs by its byte lanes (20_memory.md R52). -/

namespace Sys2Proof.Machine

/-- "word `i` = bytes[4i] | bytes[4i+1]<<8 | bytes[4i+2]<<16 | bytes[4i+3]<<24" (R106). A last group of fewer than four bytes
makes no word. -/
def bytesToWords : List Byte → List Word
  | b0 :: b1 :: b2 :: b3 :: rest => pack4 b0 b1 b2 b3 :: bytesToWords rest
  | _ => []

/-- One 4-byte group "built most significant byte first" (R106): the word so far moves up a byte for each byte taken. -/
def buildWord (group : List Byte) : Word := group.foldl (fun w b => w <<< 8 ||| b.setWidth 32) 0#32

/-- The words of a byte sequence already turned round, group by group. -/
def scanGroups : List Byte → List Word
  | b3 :: b2 :: b1 :: b0 :: rest => buildWord [b3, b2, b1, b0] :: scanGroups rest
  | _ => []

/-- The document's reverse scan: "process the byte sequence from its *last* byte toward its first", and the word sequence is
then reversed (R106). -/
def bytesToWordsByReverseScan (bytes : List Byte) : List Word := (scanGroups bytes.reverse).reverse

/-- `words_to_bytes`: word `i` yields `unpack4(w[i])` as bytes `4i..4i+3` (R107). -/
def wordsToBytes (words : List Word) : List Byte := words.flatMap unpack4

end Sys2Proof.Machine
end

