-- ==== Sys2Proof/WellFormed.lean ====
section
/-! DEFINITION. Well-formed instructions: those whose fields an encoding admits. The row and the range of the offset are
in the constructor's type; what is left to check is natural alignment (20_memory.md R55 (a), 30_encoding.md R77 step 3). -/

namespace Sys2Proof

/-- The offset OFF an instruction accesses and its size; `none` for a command, which makes no access of its own (R74). -/
def Instr.access : Instr → Option (Size × Offset)
  | .rdCmd => some (.word, 0x00#8)
  | .wrCmd _ => some (.word, 0x00#8)
  | .rdStatus => some (.word, 0x04#8)
  | .wrStatus _ => some (.word, 0x04#8)
  | .rdParam sz o => some (sz, paramOff o)
  | .rdKey sz o => some (sz, keyOff o)
  | .wrKey sz o _ => some (sz, keyOff o)
  | .rdData sz o => some (sz, dataOff o)
  | .wrData sz o _ => some (sz, dataOff o)
  | .rdSLow sz o => some (sz, sLowOff o)
  | .rdSMid sz o => some (sz, sMidOff o)
  | .rdSHigh sz o => some (sz, sHighOff o)
  | .wrSLow sz o _ => some (sz, sLowOff o)
  | .wrSMid sz o _ => some (sz, sMidOff o)
  | .wrSHigh sz o _ => some (sz, sHighOff o)
  | .nop => none
  | .expand => none
  | .encode => none
  | .decode => none

/-- An instruction is well formed when its access is naturally aligned (R55 (a)); a command always is. -/
def Instr.wellFormed (i : Instr) : Bool :=
  match i.access with
  | none => true
  | some (sz, off) => aligned sz off

end Sys2Proof
end

