-- ==== Sys2Proof/Safety.lean ====
section
/-! DEFINITION. The terms in which statements speak of runs: the bytes an access covers, the invariants of the block, and what
a host can see of it. -/

namespace Sys2Proof.Machine

/-! ### Accesses, byte by byte -/

/-- An access of `n` bytes at `off` covers the offset `x`: `off ≤ x < off + n`. -/
abbrev Covers (sz : Size) (off x : Offset) : Prop := off.toNat ≤ x.toNat ∧ x.toNat < off.toNat + sz.bytes

/-- An access covers byte lane `k` of its register (R72, R73). -/
abbrev CoversLane (sz : Size) (off : Offset) (k : Nat) : Prop := laneOf off ≤ k ∧ k < laneOf off + sz.bytes

/-- Every byte an access covers is written (R39). -/
def CoveredWritten (blk : Block) (sz : Size) (off : Offset) : Prop :=
  ∀ x : Offset, Covers sz off x → (storedByte blk x).isSome = true

/-- RDATA of a read of storage, byte by byte: a covered offset's stored byte is on its own lane, and the lanes not covered are 0
(R53, R73). -/
def ReadAnswers (blk : Block) (sz : Size) (off : Offset) (rdata : Word) : Prop :=
  (∀ x : Offset, Covers sz off x → storedByte blk x = some (byteLane rdata (laneOf x))) ∧
  (∀ k < 4, ¬ CoversLane sz off k → byteLane rdata k = 0#8)

/-- What a write of WDATA leaves at every offset: a covered offset holds the byte of its own lane of WDATA and is written, and
every other offset holds what it held, written or not (R54, R72). -/
def WriteLeaves (before after : Block) (sz : Size) (off : Offset) (wdata : Word) : Prop :=
  ∀ x : Offset, storedByte after x = if Covers sz off x then some (byteLane wdata (laneOf x)) else storedByte before x

/-- Every byte of the offsets from `lo` up to, but not with, `hi` is written. -/
def AllWritten (blk : Block) (lo hi : Nat) : Prop :=
  ∀ x : Offset, lo ≤ x.toNat → x.toNat < hi → (storedByte blk x).isSome = true

/-- `n` machine steps with no fault and no refusal on the way. -/
def runsTo (n : Nat) (s t : State) : Prop := Host.Core.run Sys2Proof.core n s = .next t

/-! ### Invariants of the block -/

/-- What holds of the engine's control in every state a run reaches: DONE and BUSY exclude each other (R25), a running
operation's inputs are all written (R99, R112), and the counters stand where the operation's micro-steps put them (R36, R123,
R127, R151). -/
structure ControlInv (blk : Block) : Prop where
  busy_not_done : busy blk = true → blk.done = false
  m_range : blk.m ≤ 26
  k_range : blk.k ≤ 78
  r_range : blk.r ≤ 13
  expand_inputs : blk.phase = .expand → keyReady blk = true
  encode_inputs : blk.phase = .encode → inputsReady .encode blk = true
  decode_inputs : blk.phase = .decode → inputsReady .decode blk = true
  mixing : blk.phase = .expand → blk.m = 26 → blk.k < 78 ∧ blk.i.val = blk.k % 26 ∧ blk.j.val = blk.k % 4
  encode_round : blk.phase = .encode → blk.r ≤ 12
  decode_round : blk.phase = .decode → blk.r ≤ 12

/-- What the engine has computed so far is what the function layer gives for the operation's inputs, as they stand in KEY, DATA
and S: EXPAND's table and mixing state, and the `(A, B)` of ENCODE and DECODE. -/
structure ProgressInv (blk : Block) : Prop where
  words : blk.phase = .expand → blk.m < 26 → blk.l = blk.key
  table : blk.phase = .expand → blk.m < 26 →
    ∀ n < blk.m, tableWord blk.s n = tableWord (initTable (Vector.replicate 26 0#32)) n
  mix : blk.phase = .expand → blk.m = 26 →
    mixOf blk = mixSteps (mixStart (initTable (Vector.replicate 26 0#32)) blk.key) blk.k
  encode : blk.phase = .encode → blk.r ≠ 0 → (blk.a, blk.b) = encodeAfter blk.s (dataPair blk) (blk.r - 1)
  decode : blk.phase = .decode → (blk.a, blk.b) = decodeAfter blk.s (dataPair blk) (12 - blk.r)

/-! ### What a host can see -/

/-- The part of a block that bus transactions can show (R37): the phase (through BUSY and through which reads are free), the
status bits, the marks, and the written bytes of the storage. Storage that the running operation writes is not in it (R95). -/
structure HostView where
  phase : Phase
  done : Bool
  errCmd : Bool
  errBusy : Bool
  key : Vector Word 4
  keyWritten : Vector Lanes 4
  data : Option (Vector Word 2 × Vector Lanes 2)
  s : Option (Vector Word 26 × Vector Lanes 26)
deriving DecidableEq, Repr

/-- The written bytes of some registers, 0 in place of an unwritten one. -/
def writtenPart {n : Nat} (written : Vector Lanes n) (values : Vector Word n) : Vector Word n :=
  Vector.zipWith readLanes written values

/-- What bus transactions can show of a block. -/
def hostView (blk : Block) : HostView where
  phase := blk.phase
  done := blk.done
  errCmd := blk.errCmd
  errBusy := blk.errBusy
  key := writtenPart blk.keyWritten blk.key
  keyWritten := blk.keyWritten
  data :=
    if blk.phase = .encode ∨ blk.phase = .decode then none
    else some (writtenPart blk.dataWritten blk.data, blk.dataWritten)
  s := if blk.phase = .expand then none else some (writtenPart blk.sWritten blk.s, blk.sWritten)

/-- Two machines that the same host cannot tell apart now: equal views, and equal inputs, responses and draws. -/
structure SameView (x y : State) : Prop where
  view : hostView x.block = hostView y.block
  inputs : x.inputs = y.inputs
  trace : x.trace = y.trace
  drawIndex : x.drawIndex = y.drawIndex

/-- Two blocks whose running operation stands at the same micro-step with the same values, whatever the rest of the hidden state
and of the storage behind the marks holds. -/
def SameProgress (x y : Block) : Prop :=
  match x.phase with
  | .idle => True
  | .expand =>
    x.m = y.m ∧ x.l = y.l ∧ (∀ n < x.m, tableWord x.s n = tableWord y.s n) ∧
      (26 ≤ x.m → mixOf x = mixOf y ∧ x.k = y.k)
  | .encode => x.s = y.s ∧ x.data = y.data ∧ x.r = y.r ∧ (x.r ≠ 0 → x.a = y.a ∧ x.b = y.b)
  | .decode => x.s = y.s ∧ x.r = y.r ∧ x.a = y.a ∧ x.b = y.b

/-- Two machines that no host can ever tell apart by continuing both in the same way. -/
structure Indistinguishable (x y : State) : Prop where
  same : SameView x y
  progress : SameProgress x.block y.block

/-- Two outcomes related: both go on, in related states, or both stop for the same reason. -/
def OutcomesRelated (R : State → State → Prop) :
    Host.Outcome State Fault Refusal → Host.Outcome State Fault Refusal → Prop
  | .next s, .next t => R s t
  | .fault f, .fault g => f = g
  | .refused f, .refused g => f = g
  | _, _ => False

end Sys2Proof.Machine

namespace Sys2Proof

/-! ### Kinds of instruction -/

/-- An instruction writes CMD, KEY, DATA or S: the writes that are dropped while busy (R99). -/
def Instr.writesGuarded : Instr → Bool
  | .rdCmd => false
  | .wrCmd _ => true
  | .rdStatus => false
  | .wrStatus _ => false
  | .rdParam _ _ => false
  | .rdKey _ _ => false
  | .wrKey _ _ _ => true
  | .rdData _ _ => false
  | .wrData _ _ _ => true
  | .rdSLow _ _ => false
  | .rdSMid _ _ => false
  | .rdSHigh _ _ => false
  | .wrSLow _ _ _ => true
  | .wrSMid _ _ _ => true
  | .wrSHigh _ _ _ => true
  | .nop => true
  | .expand => true
  | .encode => true
  | .decode => true

/-- An instruction is a read row. -/
def Instr.isRead : Instr → Bool
  | .rdCmd => true
  | .wrCmd _ => false
  | .rdStatus => true
  | .wrStatus _ => false
  | .rdParam _ _ => true
  | .rdKey _ _ => true
  | .wrKey _ _ _ => false
  | .rdData _ _ => true
  | .wrData _ _ _ => false
  | .rdSLow _ _ => true
  | .rdSMid _ _ => true
  | .rdSHigh _ _ => true
  | .wrSLow _ _ _ => false
  | .wrSMid _ _ _ => false
  | .wrSHigh _ _ _ => false
  | .nop => false
  | .expand => false
  | .encode => false
  | .decode => false

/-- The operation an instruction asks for, if it asks for one (R103). -/
def Instr.operation : Instr → Option Operation
  | .wrCmd c => (decodeCommand c).bind fun cmd => match cmd with | .nop => none | .run op => some op
  | .expand => some .expand
  | .encode => some .encode
  | .decode => some .decode
  | .rdCmd => none
  | .rdStatus => none
  | .wrStatus _ => none
  | .rdParam _ _ => none
  | .rdKey _ _ => none
  | .wrKey _ _ _ => none
  | .rdData _ _ => none
  | .wrData _ _ _ => none
  | .rdSLow _ _ => none
  | .rdSMid _ _ => none
  | .rdSHigh _ _ => none
  | .wrSLow _ _ _ => none
  | .wrSMid _ _ _ => none
  | .wrSHigh _ _ _ => none
  | .nop => none

end Sys2Proof
end

