-- ==== Sys2Proof/Certificates/Slice0/Obligations.lean ====
section
/-! DEFINITION. The statements for the provers, from the numbered rules of spec/. A next state is written as the state before it with
the fields that change, so that each statement is also the instruction's frame: what is not named stays. -/

open Sys2Proof Sys2Proof.Machine

/-! ### Words: rotations and packing -/

/-- R12: the two rotations by their shifts, their amounts modulo 32, of a word amount its bits [4:0] only, and each undoes the other
(R12 states `rotr32(rotl32(v, n), n) = v`). -/
def Obligations.RotationsTakeTheirAmountModulo32 : Prop :=
  ∀ (v w : Word) (n : Nat),
    (n % 32 = 0 → rotl32 v n = v ∧ rotr32 v n = v) ∧
    (n % 32 ≠ 0 → rotl32 v n = (v <<< (n % 32) ||| v >>> (32 - n % 32)) ∧
      rotr32 v n = (v >>> (n % 32) ||| v <<< (32 - n % 32))) ∧
    rotl32 v w.toNat = rotl32 v (w.toNat % 32) ∧ low5 w = w.toNat % 32 ∧
    rotr32 (rotl32 v n) n = v ∧ rotl32 (rotr32 v n) n = v

/-- R13: packing and unpacking are each other's inverse, and byte `i` of a packed word is its bits `[8i+7:8i]`. -/
def Obligations.PackingAndUnpackingAreInverse : Prop :=
  (∀ b0 b1 b2 b3 : Byte, unpack4 (pack4 b0 b1 b2 b3) = [b0, b1, b2, b3]) ∧
  (∀ b0 b1 b2 b3 : Byte, (pack4 b0 b1 b2 b3).toNat = b0.toNat + b1.toNat * 2 ^ 8 + b2.toNat * 2 ^ 16 + b3.toNat * 2 ^ 24) ∧
  ∀ w : Word, unpack4 w = [w.extractLsb' 0 8, w.extractLsb' 8 8, w.extractLsb' 16 8, w.extractLsb' 24 8] ∧
    pack4 (byteLane w 0) (byteLane w 1) (byteLane w 2) (byteLane w 3) = w

/-- R106, R107: the two readings of the document's `bytes_to_words` are the same function, word `i` of which is `pack4` of bytes `4i`
to `4i+3`; and `words_to_bytes` is its exact inverse, on both sides. -/
def Obligations.ByteSequencesPackGroupByGroup : Prop :=
  (∀ (bytes : List Byte) (c : Nat), bytes.length = 4 * c →
    bytesToWordsByReverseScan bytes = bytesToWords bytes ∧ (bytesToWords bytes).length = c ∧
    (∀ i < c, (bytesToWords bytes)[i]? =
      some (pack4 (bytes.getD (4 * i) 0) (bytes.getD (4 * i + 1) 0) (bytes.getD (4 * i + 2) 0) (bytes.getD (4 * i + 3) 0))) ∧
    wordsToBytes (bytesToWords bytes) = bytes) ∧
  ∀ words : List Word, bytesToWords (wordsToBytes words) = words ∧
    ∀ i < words.length, ∀ k < 4, (wordsToBytes words)[4 * i + k]? = (words[i]?).map (byteLane · k)

/-! ### Encoding -/

/-- Words written out from the tables of R75 and R77: at least one of every row decodes to its instruction. -/
def Obligations.TableWordsDecodeToTheirRows : Prop :=
  decodeTableWord 16 0x200 = some .rdCmd ∧ decodeTableWord 16 0x600 = some (.wrCmd 0#32) ∧
  decodeTableWord 16 0x204 = some .rdStatus ∧ decodeTableWord 16 0x604 = some (.wrStatus 0#32) ∧
  decodeTableWord 16 0x009 = some (.rdParam .byte 1#2) ∧ decodeTableWord 16 0x116 = some (.rdKey .half 6#4) ∧
  decodeTableWord 16 0x614 = some (.wrKey .word 4#4 0#32) ∧ decodeTableWord 16 0x224 = some (.rdData .word 4#3) ∧
  decodeTableWord 16 0x526 = some (.wrData .half 6#3 0#32) ∧ decodeTableWord 16 0x27C = some (.rdSLow .word 0x3C#6) ∧
  decodeTableWord 16 0x09F = some (.rdSMid .byte 0x1F#5) ∧ decodeTableWord 16 0x2A4 = some (.rdSHigh .word 4#3) ∧
  decodeTableWord 16 0x640 = some (.wrSLow .word 0#6 0#32) ∧ decodeTableWord 16 0x59E = some (.wrSMid .half 0x1E#5 0#32) ∧
  decodeTableWord 16 0x6A4 = some (.wrSHigh .word 4#3 0#32) ∧ decodeTableWord 32 0 = some .nop ∧
  decodeTableWord 32 1 = some .expand ∧ decodeTableWord 32 2 = some .encode ∧ decodeTableWord 32 3 = some .decode ∧
  decodeTableWord 32 4 = none ∧ decodeTableWord 32 0x80000001 = none ∧ decodeTableWord 16 0x30C = none

/-- No bit of an encoding is dropped: every well-formed instruction is what the decoder reads from its own word. -/
def Obligations.DecodeOfEncodeIsTheInstruction : Prop :=
  ∀ i : Instr, i.wellFormed = true → decode (encode i) = .ok i

/-- Every word the decoder accepts is the word of the instruction it reads, but for the WDATA of a read, which is no part of it;
and what it reads is well formed. -/
def Obligations.EncodeOfDecodeIsTheWord : Prop :=
  ∀ (w : InstrWord) (i : Instr), decode w = .ok i →
    i.wellFormed = true ∧
      match w with
      | .bus h wdata => encode i = .bus h (if headerWr h = true then wdata else 0#32)
      | .cmd c => encode i = .cmd c

/-- R77: "Rows do not overlap", and each row reads and writes what its WR bit says. -/
def Obligations.NoHeaderMatchesTwoRows : Prop :=
  (∀ (h : Header) (x y : BusRow), x.covers h = true → y.covers h = true → x = y) ∧
  (∀ x : BusRow, x ∈ busRows) ∧
  ∀ (h : Header) (wdata : Word) (i : Instr), decodeBus h wdata = .ok i → (headerWr h = false ↔ i.isRead = true)

/-- R161: the five kinds of bus error with their codes, each raised by exactly the headers of its cause, whatever WDATA and the
state, RSVD_SIZE by a write whose byte strobes have no SZ code too; the effect is an ERROR response with RDATA 0 and nothing else. -/
def Obligations.BusErrorsHaveTheirCausesAndNoEffect : Prop :=
  (BusErrorKind.rsvdSize.code = 1 ∧ BusErrorKind.unmapped.code = 2 ∧ BusErrorKind.badSize.code = 3 ∧
    BusErrorKind.roWrite.code = 4 ∧ BusErrorKind.misaligned.code = 5) ∧
  (∀ (h : Header) (wdata : Word),
    let off := (headerOff h).toNat
    (decodeBus h wdata = .error .rsvdSize ↔ headerSz h = 3#2) ∧
    (decodeBus h wdata = .error .unmapped ↔ headerSz h ≠ 3#2 ∧
      ((0x0C ≤ off ∧ off ≤ 0x0F) ∨ (0x28 ≤ off ∧ off ≤ 0x3F) ∨ 0xA8 ≤ off)) ∧
    (decodeBus h wdata = .error .badSize ↔ headerSz h ≠ 3#2 ∧ off ≤ 0x07 ∧
      (headerSz h ≠ 2#2 ∨ (off ≠ 0x00 ∧ off ≠ 0x04))) ∧
    (decodeBus h wdata = .error .roWrite ↔ headerSz h ≠ 3#2 ∧ 0x08 ≤ off ∧ off ≤ 0x0B ∧ headerWr h = true) ∧
    (decodeBus h wdata = .error .misaligned ↔ headerSz h ≠ 3#2 ∧ off % 2 ^ (headerSz h).toNat ≠ 0 ∧
      ((0x08 ≤ off ∧ off ≤ 0x0B ∧ headerWr h = false) ∨ (0x10 ≤ off ∧ off ≤ 0x27) ∨ (0x40 ≤ off ∧ off ≤ 0xA7)))) ∧
  (∀ strobes : Lanes, (∀ (sz : Size) (off : Offset), aligned sz off = true → strobes ≠ accessLanes sz off) →
    ∀ (addr : Nat) (wdata : Word), ∃ h, strobedWrite addr strobes wdata = .bus h wdata ∧
      decodeBus h wdata = .error .rsvdSize) ∧
  (∀ (s : State) (h : Header) (wdata : Word) (rest : List Input) (kind : BusErrorKind),
    s.inputs = .bus h wdata :: rest → decodeBus h wdata = .error kind →
    step s = .next { s with
      inputs := rest, trace := .error (headerOff h) (Size.ofCode (headerSz h)) kind :: s.trace }) ∧
  ∀ (off : Offset) (size : Option Size) (kind : BusErrorKind), rdataOf (.error off size kind) = 0#32

/-- R90, R167: a form that is not aligned is the bus error MISALIGNED in the meaning too, whatever the state, and changes nothing. -/
def Obligations.MisalignedFormsAreBusErrors : Prop :=
  ∀ (i : Instr) (sz : Size) (off : Offset) (s : State), i.access = some (sz, off) → aligned sz off = false →
    exec i s = .next { s with trace := .error off (some sz) .misaligned :: s.trace }

/-! ### The step -/

/-- When the transaction at the head of the inputs decodes to an instruction, the step takes it off and is `exec` of it. -/
def Obligations.StepRunsTheDecodedInstruction : Prop :=
  ∀ (s : State) (h : Header) (wdata : Word) (rest : List Input) (i : Instr),
    s.inputs = .bus h wdata :: rest → decodeBus h wdata = .ok i → step s = exec i { s with inputs := rest }

/-- R70: a command word written to CMD does what its row does, in every state; so the step that performs the write runs the row. -/
def Obligations.CommandWordsRunAsTheWdataOfWrCmd : Prop :=
  ∀ (s : State) (c : Word) (i : Instr), decode (.cmd c) = .ok i →
    exec (.wrCmd c) s = exec i s ∧ decodeBus 0x600#11 c = .ok (.wrCmd c) ∧
    ∀ rest : List Input, s.inputs = .bus 0x600#11 c :: rest → step s = exec i { s with inputs := rest }

/-- R109: a turn of the engine is one micro-step of the running operation and changes nothing else; with no operation running the
engine does nothing. That an empty list of inputs gives the engine its turn is the model's choice (log entry 7). -/
def Obligations.EngineTurnsAreMicroSteps : Prop :=
  ∀ s : State,
    (s.inputs = [] → step s = .next { s with block := engineStep s.block }) ∧
    (∀ rest, s.inputs = .engine :: rest → step s = .next { s with inputs := rest, block := engineStep s.block }) ∧
    (s.block.phase = .idle → engineStep s.block = s.block)

/-- Every transaction has exactly one outcome and none is refused: a step goes on, or stops with one of the two faults of unwritten
bytes, which only a transaction raises. -/
def Obligations.NothingIsRefused : Prop :=
  (∀ (i : Instr) (s : State) (x : Refusal), exec i s ≠ .refused x) ∧
  (∀ (s : State) (x : Refusal), step s ≠ .refused x) ∧
  ∀ (s : State) (f : Fault), step s = .fault f →
    ∃ h wdata rest i, s.inputs = .bus h wdata :: rest ∧ decodeBus h wdata = .ok i ∧
      exec i { s with inputs := rest } = .fault f

/-- R167: the priority of the outcomes, the normal effect last. Each clause holds whatever a later one would say. -/
def Obligations.OutcomesFollowTheirPriority : Prop :=
  ∀ (s : State) (h : Header) (wdata : Word) (rest : List Input), s.inputs = .bus h wdata :: rest →
    let answer (r : Response) : State := { s with inputs := rest, trace := r :: s.trace }
    let bad (kind : BusErrorKind) : State := answer (.error (headerOff h) (Size.ofCode (headerSz h)) kind)
    let off := (headerOff h).toNat
    (headerSz h = 3#2 → step s = .next (bad .rsvdSize)) ∧
    (headerSz h ≠ 3#2 → mapped (headerOff h) = false → step s = .next (bad .unmapped)) ∧
    (headerSz h ≠ 3#2 → off ≤ 0x07 → ¬ (headerSz h = 2#2 ∧ (off = 0 ∨ off = 4)) → step s = .next (bad .badSize)) ∧
    (headerSz h ≠ 3#2 → 0x08 ≤ off → off ≤ 0x0B → headerWr h = true → step s = .next (bad .roWrite)) ∧
    (decodeBus h wdata = .error .misaligned → step s = .next (bad .misaligned)) ∧
    (∀ i, decodeBus h wdata = .ok i → i.writesGuarded = true → busy s.block = true →
      step s = .next { answer .writeOkay with block := { s.block with errBusy := true } }) ∧
    (h = 0x600#11 → busy s.block = false → decodeCommand wdata = none →
      step s = .next { answer .writeOkay with block := { s.block with errCmd := true } }) ∧
    (∀ i, decodeBus h wdata = .ok i → step s = exec i { s with inputs := rest })

/-! ### Reset -/

/-- R38: what reset leaves, of the values the spec gives: STATUS 0, the engine idle, every byte of KEY, DATA and S unwritten, CMD
reading 0 and PARAM its constant. -/
def Obligations.ResetLeavesTheSpecifiedValues : Prop :=
  statusWord State.reset.block = 0#32 ∧ State.reset.block.phase = .idle ∧
  (∀ x : Offset, storedByte State.reset.block x = none) ∧
  (∃ t, exec .rdStatus State.reset = .next t ∧ t.trace = [.readOkay 0x00000000#32] ∧ t.block = State.reset.block) ∧
  (∃ t, exec .rdCmd State.reset = .next t ∧ t.trace = [.readOkay 0x00000000#32] ∧ t.block = State.reset.block) ∧
  (∃ t, exec (.rdParam .word 0#2) State.reset = .next t ∧ t.trace = [.readOkay 0x01100C20#32] ∧
    t.block = State.reset.block)

/-- R180: the reset input ends whatever runs, clears the status bits and unwrites all storage, in one step, and DONE stays 0. The
hidden values it leaves are the model's choice (log entry 15) and are not stated. -/
def Obligations.ResetInputAbandonsTheOperation : Prop :=
  ∀ (s : State) (rest : List Input), s.inputs = .reset :: rest →
    ∃ t, step s = .next t ∧ t.inputs = rest ∧ t.trace = s.trace ∧ t.drawIndex = s.drawIndex ∧
      t.block.phase = .idle ∧ statusWord t.block = 0#32 ∧ ∀ x : Offset, storedByte t.block x = none

/-! ### Reads -/

/-- R91, R102: RD_CMD answers 0 and RD_STATUS the four status bits with zero above them, in every state, and neither changes the block. -/
def Obligations.StatusAndCommandReads : Prop :=
  ∀ s : State,
    exec .rdCmd s = .next { s with trace := .readOkay 0x00000000#32 :: s.trace } ∧
    ∃ w : Word, exec .rdStatus s = .next { s with trace := .readOkay w :: s.trace } ∧
      w.getLsbD 0 = decide (s.block.phase ≠ .idle) ∧ w.getLsbD 1 = s.block.done ∧ w.getLsbD 2 = s.block.errCmd ∧
      w.getLsbD 3 = s.block.errBusy ∧ ∀ k, 4 ≤ k → w.getLsbD k = false

/-- R101: an aligned read of PARAM answers, in every state, with the bytes of 0x01100C20 it covers on their lanes. -/
def Obligations.ParamReadsAnswerTheConstant : Prop :=
  ∀ (s : State) (sz : Size) (o : BitVec 2), aligned sz (paramOff o) = true →
    ∃ w : Word, exec (.rdParam sz o) s = .next { s with trace := .readOkay w :: s.trace } ∧
      ∀ k < 4, byteLane w k = if CoversLane sz (paramOff o) k then byteLane 0x01100C20#32 k else 0#8

/-- R98: an aligned read of written KEY bytes answers with them, busy or not, and changes nothing. -/
def Obligations.KeyReadsAnswerTheStoredBytes : Prop :=
  ∀ (s : State) (sz : Size) (o : BitVec 4), aligned sz (keyOff o) = true → CoveredWritten s.block sz (keyOff o) →
    ∃ w : Word, exec (.rdKey sz o) s = .next { s with trace := .readOkay w :: s.trace } ∧
      ReadAnswers s.block sz (keyOff o) w

/-- R100: an aligned read of written DATA bytes answers with them, idle or while EXPAND runs, and changes nothing. -/
def Obligations.DataReadsAnswerTheStoredBytes : Prop :=
  ∀ (s : State) (sz : Size) (o : BitVec 3), aligned sz (dataOff o) = true → CoveredWritten s.block sz (dataOff o) →
    s.block.phase = .idle ∨ s.block.phase = .expand →
    ∃ w : Word, exec (.rdData sz o) s = .next { s with trace := .readOkay w :: s.trace } ∧
      ReadAnswers s.block sz (dataOff o) w

/-- R96: an aligned read of written S bytes answers with them, except while EXPAND runs, in each of the three rows. -/
def Obligations.TableReadsAnswerTheStoredBytes : Prop :=
  ∀ (s : State) (i : Instr) (sz : Size) (off : Offset),
    ((∃ o, i = .rdSLow sz o ∧ off = sLowOff o) ∨ (∃ o, i = .rdSMid sz o ∧ off = sMidOff o) ∨
      (∃ o, i = .rdSHigh sz o ∧ off = sHighOff o)) →
    aligned sz off = true → CoveredWritten s.block sz off → s.block.phase ≠ .expand →
    ∃ w : Word, exec i s = .next { s with trace := .readOkay w :: s.trace } ∧ ReadAnswers s.block sz off w

/-- R95: while EXPAND runs, an aligned read of S answers with a free byte on every lane it covers, written or not, and while ENCODE or
DECODE runs so does a read of DATA; the block does not change. It holds for every value of the free bytes. -/
def Obligations.ReadsOfStorageInUseAreFree : Prop :=
  ∀ (s : State) (i : Instr) (sz : Size) (off : Offset),
    (s.block.phase = .expand ∧ ((∃ o, i = .rdSLow sz o ∧ off = sLowOff o) ∨ (∃ o, i = .rdSMid sz o ∧ off = sMidOff o) ∨
      (∃ o, i = .rdSHigh sz o ∧ off = sHighOff o))) ∨
    ((s.block.phase = .encode ∨ s.block.phase = .decode) ∧ ∃ o, i = .rdData sz o ∧ off = dataOff o) →
    aligned sz off = true →
    ∃ w : Word,
      exec i s = .next { s with trace := .readOkay w :: s.trace, drawIndex := s.drawIndex + 4 } ∧
      ∀ k < 4, byteLane w k = if CoversLane sz off k then Config.drawByte (s.drawIndex + k) else 0#8

/-- R16 and R39 with 93_implementation_defined.md U1: a read of storage that covers an unwritten byte is the model fault, and only such a read
faults. -/
def Obligations.ReadsOfUnwrittenBytesFault : Prop :=
  ∀ (s : State) (i : Instr) (sz : Size) (off : Offset),
    ((∃ o, i = .rdKey sz o ∧ off = keyOff o) ∨
      ((s.block.phase = .idle ∨ s.block.phase = .expand) ∧ ∃ o, i = .rdData sz o ∧ off = dataOff o) ∨
      (s.block.phase ≠ .expand ∧ ((∃ o, i = .rdSLow sz o ∧ off = sLowOff o) ∨ (∃ o, i = .rdSMid sz o ∧ off = sMidOff o) ∨
        (∃ o, i = .rdSHigh sz o ∧ off = sHighOff o)))) →
    aligned sz off = true →
    (exec i s = .fault (.unwrittenRead off sz) ↔ ∃ x : Offset, Covers sz off x ∧ storedByte s.block x = none)

/-- R73: RDATA is MemRead moved to the lanes of its own addresses, MemRead being the sum of R53, and 0 on an ERROR response. -/
def Obligations.ReadDataTravelsOnItsLanes : Prop :=
  (∀ (sz : Size) (off : Offset) (value : Word), aligned sz off = true →
    readLanes (accessLanes sz off) value =
      memRead (fun m => byteLane value (laneOf off + m)) sz.bytes <<< (8 * (off.toNat % 4)) ∧
    (∀ k < 4, ¬ CoversLane sz off k → byteLane (readLanes (accessLanes sz off) value) k = 0#8)) ∧
  ∀ (off : Offset) (size : Option Size) (kind : BusErrorKind), rdataOf (.error off size kind) = 0#32

/-- R57: reads have no side effect on the block, and a write to KEY, DATA, S or STATUS done twice leaves the block as done once. -/
def Obligations.ReadsChangeNothingAndStorageWritesAreIdempotent : Prop :=
  (∀ (i : Instr) (s t : State), i.isRead = true → exec i s = .next t → t.block = s.block ∧ t.inputs = s.inputs) ∧
  ∀ (i : Instr) (s t u : State), i.isRead = false → i.operation = none →
    exec i s = .next t → exec i t = .next u → u.block = t.block

/-! ### Writes -/

/-- R72: `v` is the `n` bytes of WDATA from lane `off mod 4` up; byte `m` of it is WDATA's lane `(off mod 4) + m`, and the other lanes
are ignored; a word write takes all of WDATA. -/
def Obligations.WriteDataTravelsOnItsLanes : Prop :=
  ∀ (sz : Size) (off : Offset) (wdata wdata' old : Word), aligned sz off = true →
    (writeValue sz off wdata).toNat = wdata.toNat / 2 ^ (8 * (off.toNat % 4)) % 2 ^ (8 * sz.bytes) ∧
    (∀ m < sz.bytes, byteLane (writeValue sz off wdata) m = byteLane wdata (off.toNat % 4 + m)) ∧
    (∀ m < sz.bytes, byteLane (mergeLanes (accessLanes sz off) wdata old) (off.toNat % 4 + m) =
      byteLane (writeValue sz off wdata) m) ∧
    ((∀ k < 4, CoversLane sz off k → byteLane wdata k = byteLane wdata' k) →
      mergeLanes (accessLanes sz off) wdata old = mergeLanes (accessLanes sz off) wdata' old) ∧
    (sz = .word → writeValue sz off wdata = wdata)

/-- R92: WR_STATUS clears DONE, ERR_CMD and ERR_BUSY where their bits are 1 and changes nothing else, in every state. -/
def Obligations.StatusWriteClearsItsBits : Prop :=
  ∀ (v : Word) (s : State),
    exec (.wrStatus v) s = .next { s with
      trace := .writeOkay :: s.trace
      block := { s.block with
        done := if v.getLsbD 1 then false else s.block.done
        errCmd := if v.getLsbD 2 then false else s.block.errCmd
        errBusy := if v.getLsbD 3 then false else s.block.errBusy } }

/-- R93: an aligned KEY write while not busy completes: the covered bytes of KEY hold their lanes of WDATA and are written, and every
other byte, register and flag is unchanged. -/
def Obligations.KeyWritesStoreTheirLanes : Prop :=
  ∀ (sz : Size) (o : BitVec 4) (wdata : Word) (s : State), aligned sz (keyOff o) = true → busy s.block = false →
    ∃ (key : Vector Word 4) (marks : Vector Lanes 4) (t : State),
      t = { s with
        trace := .writeOkay :: s.trace, block := { s.block with key := key, keyWritten := marks } } ∧
      exec (.wrKey sz o wdata) s = .next t ∧ WriteLeaves s.block t.block sz (keyOff o) wdata ∧
      ∀ n : Fin 4, n.val ≠ o.toNat / 4 → key[n] = s.block.key[n]

/-- R94: the same for DATA. -/
def Obligations.DataWritesStoreTheirLanes : Prop :=
  ∀ (sz : Size) (o : BitVec 3) (wdata : Word) (s : State), aligned sz (dataOff o) = true → busy s.block = false →
    ∃ (data : Vector Word 2) (marks : Vector Lanes 2) (t : State),
      t = { s with
        trace := .writeOkay :: s.trace, block := { s.block with data := data, dataWritten := marks } } ∧
      exec (.wrData sz o wdata) s = .next t ∧ WriteLeaves s.block t.block sz (dataOff o) wdata ∧
      ∀ n : Fin 2, n.val ≠ o.toNat / 4 → data[n] = s.block.data[n]

/-- R97: the same for S, in each of its three rows. -/
def Obligations.TableWritesStoreTheirLanes : Prop :=
  ∀ (i : Instr) (sz : Size) (off : Offset) (wdata : Word) (s : State),
    ((∃ o, i = .wrSLow sz o wdata ∧ off = sLowOff o) ∨ (∃ o, i = .wrSMid sz o wdata ∧ off = sMidOff o) ∨
      (∃ o, i = .wrSHigh sz o wdata ∧ off = sHighOff o)) →
    aligned sz off = true → busy s.block = false →
    ∃ (table : Vector Word 26) (marks : Vector Lanes 26) (t : State),
      t = { s with
        trace := .writeOkay :: s.trace, block := { s.block with s := table, sWritten := marks } } ∧
      exec i s = .next t ∧ WriteLeaves s.block t.block sz off wdata ∧
      ∀ n : Fin 26, n.val ≠ (off.toNat - 0x40) / 4 → table[n] = s.block.s[n]

/-- R99: while busy, an aligned write to CMD, KEY, DATA or S has the one effect ERR_BUSY <- 1, answered OKAY, its command word not decoded;
a STATUS write acts as it does when not busy. -/
def Obligations.WritesWhileBusyAreDropped : Prop :=
  ∀ (i : Instr) (s : State), busy s.block = true →
    (i.writesGuarded = true → i.wellFormed = true →
      exec i s = .next { s with trace := .writeOkay :: s.trace, block := { s.block with errBusy := true } }) ∧
    ∀ v, i = .wrStatus v → exec i s = .next { s with
      trace := .writeOkay :: s.trace
      block := { s.block with
        done := s.block.done && !v.getLsbD 1, errCmd := s.block.errCmd && !v.getLsbD 2
        errBusy := s.block.errBusy && !v.getLsbD 3 } }

/-! ### Commands -/

/-- R103, R164: WR_CMD while not busy: NOP for 0, acceptance for 1, 2 and 3 with their inputs written, ERR_CMD and nothing else for every
other word; while busy, ERR_BUSY and nothing else, the word not decoded. -/
def Obligations.CommandWriteDispatches : Prop :=
  ∀ (c : Word) (s : State),
    let answer (blk : Block) : State := { s with trace := .writeOkay :: s.trace, block := blk }
    (busy s.block = true → exec (.wrCmd c) s = .next (answer { s.block with errBusy := true })) ∧
    (busy s.block = false →
      (c = 0#32 → exec (.wrCmd c) s = .next (answer s.block)) ∧
      (c = 1#32 → AllWritten s.block 0x10 0x20 → exec (.wrCmd c) s = .next (answer (accept .expand s.block))) ∧
      (c = 2#32 → AllWritten s.block 0x20 0x28 → AllWritten s.block 0x40 0xA8 →
        exec (.wrCmd c) s = .next (answer (accept .encode s.block))) ∧
      (c = 3#32 → AllWritten s.block 0x20 0x28 → AllWritten s.block 0x40 0xA8 →
        exec (.wrCmd c) s = .next (answer (accept .decode s.block))) ∧
      (3 < c.toNat → exec (.wrCmd c) s = .next (answer { s.block with errCmd := true })))

/-- R105: NOP is the word 0 and changes nothing while not busy; while busy its write is dropped with ERR_BUSY. -/
def Obligations.NopHasNoEffect : Prop :=
  encode .nop = .cmd 0x00000000#32 ∧
  ∀ s : State,
    (busy s.block = false → exec .nop s = .next { s with trace := .writeOkay :: s.trace }) ∧
    (busy s.block = true →
      exec .nop s = .next { s with trace := .writeOkay :: s.trace, block := { s.block with errBusy := true } })

/-- R104 with R120, R140, R144: while not busy, whatever the error flags hold, an operation whose inputs are all written is accepted, in
one step: DONE <- 0 and the operation's phase; EXPAND takes L <- KEY with its initialisation to begin, ENCODE has its whitening to begin,
DECODE takes A <- DATA[0] and B <- DATA[1] with round 12 to begin; nothing else changes. -/
def Obligations.OperationsAreAccepted : Prop :=
  ∀ s : State, busy s.block = false →
    let answer (blk : Block) : State := { s with trace := .writeOkay :: s.trace, block := blk }
    (AllWritten s.block 0x10 0x20 → exec .expand s = .next (answer
      { s.block with phase := .expand, done := false, l := s.block.key, m := 0 })) ∧
    (AllWritten s.block 0x20 0x28 → AllWritten s.block 0x40 0xA8 → exec .encode s = .next (answer
      { s.block with phase := .encode, done := false, r := 0 })) ∧
    (AllWritten s.block 0x20 0x28 → AllWritten s.block 0x40 0xA8 → exec .decode s = .next (answer
      { s.block with phase := .decode, done := false, a := s.block.data[0], b := s.block.data[1], r := 12 }))

/-- R112 with U2: while not busy, each operation faults at acceptance exactly when one of its input bytes is unwritten: EXPAND's are KEY's
16, ENCODE's and DECODE's are DATA's 8 and S's 104. -/
def Obligations.UnwrittenInputsFaultAtAcceptance : Prop :=
  ∀ s : State, busy s.block = false →
    (exec .expand s = .fault (.unwrittenInput .expand) ↔ ¬ AllWritten s.block 0x10 0x20) ∧
    (exec .encode s = .fault (.unwrittenInput .encode) ↔
      ¬ (AllWritten s.block 0x20 0x28 ∧ AllWritten s.block 0x40 0xA8)) ∧
    (exec .decode s = .fault (.unwrittenInput .decode) ↔
      ¬ (AllWritten s.block 0x20 0x28 ∧ AllWritten s.block 0x40 0xA8))

/-! ### The status bits, over every step -/

/-- R24: BUSY is `phase ≠ IDLE`. The acceptance of an operation sets it, nothing else does, and only a completion or the reset input clears it: no
transaction does. -/
def Obligations.BusyIsSetByAcceptanceAndClearedByCompletion : Prop :=
  (∀ blk : Block, (statusWord blk).getLsbD 0 = true ↔ blk.phase ≠ .idle) ∧
  (∀ (op : Operation) (blk : Block), busy (accept op blk) = true) ∧
  (∀ (i : Instr) (s t : State), exec i s = .next t →
    (busy s.block = true → t.block.phase = s.block.phase) ∧
    (busy s.block = false → busy t.block = true →
      ∃ op, i.operation = some op ∧ inputsReady op s.block = true ∧ t.block = accept op s.block)) ∧
  ∀ s t : State, step s = .next t → busy s.block = true → busy t.block = false →
    (∃ rest, s.inputs = .reset :: rest) ∨ (t.block = engineStep s.block ∧ t.block.done = true)

/-- R25: DONE is set only by a completion. An accepted operation, a STATUS write with bit 1 set and the reset input clear it, and no other
instruction changes it, a NOP among them; and every step keeps "DONE = 1 implies BUSY = 0". -/
def Obligations.DoneIsSetByCompletionOnly : Prop :=
  (∀ blk : Block, (engineStep blk).done ≠ blk.done → (engineStep blk).done = true ∧ (engineStep blk).phase = .idle) ∧
  (∀ blk : Block, blk.phase ≠ .idle → (engineStep blk).phase = .idle → (engineStep blk).done = true) ∧
  (∀ (i : Instr) (s t : State), exec i s = .next t → t.block.done ≠ s.block.done →
    t.block.done = false ∧ ((∃ op, i.operation = some op ∧ busy t.block = true) ∨ ∃ v, i = .wrStatus v ∧ v.getLsbD 1 = true)) ∧
  (∀ (i : Instr) (s t : State), exec i s = .next t → busy s.block = false → busy t.block = true → t.block.done = false) ∧
  (∀ (v : Word) (s t : State), v.getLsbD 1 = true → exec (.wrStatus v) s = .next t → t.block.done = false) ∧
  (∀ s t : State, (busy s.block = true → s.block.done = false) → step s = .next t → busy t.block = true →
    t.block.done = false) ∧
  ∀ (s t : State) (rest : List Input), s.inputs = .reset :: rest → step s = .next t → t.block.done = false

/-- R26: ERR_CMD and ERR_BUSY are sticky: of the steps, only a STATUS write with the flag's bit set and the reset input clear it, and only
their own events set them. -/
def Obligations.ErrorFlagsAreSticky : Prop :=
  (∀ blk : Block, (engineStep blk).errCmd = blk.errCmd ∧ (engineStep blk).errBusy = blk.errBusy) ∧
  ∀ (i : Instr) (s t : State), exec i s = .next t →
    (s.block.errCmd = true → t.block.errCmd = false → ∃ v, i = .wrStatus v ∧ v.getLsbD 2 = true) ∧
    (s.block.errBusy = true → t.block.errBusy = false → ∃ v, i = .wrStatus v ∧ v.getLsbD 3 = true) ∧
    (s.block.errCmd = false → t.block.errCmd = true →
      ∃ c, i = .wrCmd c ∧ busy s.block = false ∧ decodeCommand c = none) ∧
    (s.block.errBusy = false → t.block.errBusy = true → i.writesGuarded = true ∧ busy s.block = true)

/-! ### The micro-steps -/

/-- R121: initialisation micro-step `n` writes `S[n]` only: P for `n = 0`, else the word before it plus Q; the whole initialisation leaves
`S[m] = P + m × Q` whatever S held. -/
def Obligations.InitialisationIsTheProgression : Prop :=
  (∀ blk : Block, blk.phase = .expand → blk.m < 26 →
    (engineStep blk).m = blk.m + 1 ∧ (engineStep blk).phase = .expand ∧
    ∀ n < 26, tableWord (engineStep blk).s n =
      if n = blk.m then (if n = 0 then 0xb7e15163#32 else tableWord blk.s (n - 1) + 0x9e3779b9#32) else tableWord blk.s n) ∧
  (∀ t u : Vector Word 26, initTable t = initTable u) ∧
  ∀ (t : Vector Word 26), ∀ n < 26, tableWord (initTable t) n = 0xb7e15163#32 + BitVec.ofNat 32 n * 0x9e3779b9#32

/-- R122: mixing starts with both accumulators 0 and both cursors 0, and takes exactly 78 micro-steps; each, in the spec's order, by core's
rotations: the new A goes into `S[i]` and into the sum and the amount of B, the new B goes into `L[j]`, and both cursors advance. Derived: that the 26th initialisation
micro-step leaves the zeros is log entry 14 (DEDUCED), and that the hidden A, B, L, k, i and j keep the 78th step's values after
completion, which R35, R125 and U4 leave open, is the model's choice, log entry 13 (DESIGN CHOICE). -/
def Obligations.MixingStepFollowsItsOrder : Prop :=
  (∀ blk : Block, blk.phase = .expand → blk.m = 25 →
    let next := engineStep blk
    next.m = 26 ∧ next.k = 0 ∧ next.a = 0#32 ∧ next.b = 0#32 ∧ next.i.val = 0 ∧ next.j.val = 0 ∧ next.phase = .expand) ∧
  ∀ blk : Block, blk.phase = .expand → blk.m = 26 →
    let a := (blk.s[blk.i] + blk.a + blk.b).rotateLeft 3
    let b := (blk.l[blk.j] + a + blk.b).rotateLeft ((a + blk.b).toNat % 32)
    let next := engineStep blk
    next.a = a ∧ next.b = b ∧ next.s[blk.i] = a ∧ next.l[blk.j] = b ∧
    (∀ n : Fin 26, n ≠ blk.i → next.s[n] = blk.s[n]) ∧ (∀ n : Fin 4, n ≠ blk.j → next.l[n] = blk.l[n]) ∧
    next.i.val = (blk.i.val + 1) % 26 ∧ next.j.val = (blk.j.val + 1) % 4 ∧ next.k = blk.k + 1 ∧
    next.phase = (if blk.k + 1 < 78 then .expand else .idle) ∧
    next.key = blk.key ∧ next.data = blk.data ∧ next.keyWritten = blk.keyWritten ∧ next.dataWritten = blk.dataWritten

/-- R123: mixing step `k` uses `i = k mod 26` and `j = k mod 4`, and after the 78th the cursors stand at 0 and 2. -/
def Obligations.CursorsGoRoundTheirLengths : Prop :=
  ∀ (s : Vector Word 26) (l : Vector Word 4),
    (∀ k, (mixSteps (mixStart s l) k).i.val = k % 26 ∧ (mixSteps (mixStart s l) k).j.val = k % 4) ∧
    (mixSteps (mixStart s l) 78).i = 0 ∧ (mixSteps (mixStart s l) 78).j = 2

/-- R124: the amount of the B rotation is the low 5 bits of the sum, and may be computed from the low 5 bits of the addends. -/
def Obligations.MixingAmountNeedsTheLowBitsOnly : Prop :=
  ∀ a b v : Word, low5 (a + b) = (low5 a + low5 b) % 32 ∧
    rotl32 v (low5 (a + b)) = rotl32 v (low5 a + low5 b) ∧ (low5 (a + b) = 0 → rotl32 v (low5 (a + b)) = v)

/-- R141, R142: the ENCODE micro-steps: the whitening, then round `r` with the XOR before the rotation before the addition, the B half with
the A just written; while no round is the last, DATA and S stay, and the twelfth writes its A and B to DATA. Derived: that the hidden A, B and r keep
their last values after completion, which R35 and U4 leave open, is the model's choice, log entry 13 (DESIGN CHOICE). -/
def Obligations.EncodeMicroStepsAreTheRounds : Prop :=
  ∀ blk : Block, blk.phase = .encode →
    (blk.r = 0 → engineStep blk =
      { blk with a := blk.data[0] + blk.s[0], b := blk.data[1] + blk.s[1], r := 1 }) ∧
    (∀ h : 1 ≤ blk.r ∧ blk.r ≤ 12,
      let a := (blk.a ^^^ blk.b).rotateLeft (blk.b.toNat % 32) + blk.s[2 * blk.r]
      let b := (blk.b ^^^ a).rotateLeft (a.toNat % 32) + blk.s[2 * blk.r + 1]
      let next : Block := { blk with a := a, b := b, r := blk.r + 1 }
      engineStep blk =
        if blk.r < 12 then next
        else { next with phase := .idle, done := true, data := #v[a, b], dataWritten := #v[0xF#4, 0xF#4] })

/-- R145: a DECODE micro-step is round `r`: the B half first with the round's starting A, then the A half with the B just written; the
subtraction before the rotation before the XOR. After `n` rounds of DECODE, on what ENCODE gave, `(A, B)` is what ENCODE held after its
round `12 - n`, round 0 being the whitening. -/
def Obligations.DecodeMicroStepsAreTheRounds : Prop :=
  (∀ blk : Block, blk.phase = .decode → ∀ h : 1 ≤ blk.r ∧ blk.r ≤ 12,
    let b := (blk.b - blk.s[2 * blk.r + 1]).rotateRight (blk.a.toNat % 32) ^^^ blk.a
    let a := (blk.a - blk.s[2 * blk.r]).rotateRight (b.toNat % 32) ^^^ b
    engineStep blk = { blk with a := a, b := b, r := blk.r - 1 }) ∧
  ∀ (t : Vector Word 26) (p : Word × Word), ∀ n ≤ 12, decodeAfter t (encodeBlock t p) n = encodeAfter t p (12 - n)

/-- R110: the completions: EXPAND's last micro-step leaves every S byte written; ENCODE's round 12 writes A and B to DATA, DECODE's
un-whitening writes `A - S[0]` and `B - S[1]`, all DATA bytes written; phase IDLE, DONE 1, ERR_CMD and ERR_BUSY and the other storage
unchanged. -/
def Obligations.CompletionWritesTheResults : Prop :=
  ∀ blk : Block,
    let next := engineStep blk
    (blk.phase = .expand → blk.m = 26 → blk.k = 77 →
      next.phase = .idle ∧ next.done = true ∧ next.s = (mixOne (mixOf blk)).s ∧ AllWritten next 0x40 0xA8 ∧
      next.key = blk.key ∧ next.keyWritten = blk.keyWritten ∧ next.data = blk.data ∧ next.dataWritten = blk.dataWritten ∧
      next.errCmd = blk.errCmd ∧ next.errBusy = blk.errBusy) ∧
    (blk.phase = .encode → blk.r = 12 →
      next.phase = .idle ∧ next.done = true ∧ dataPair next = encodeRound blk.s 12 (blk.a, blk.b) ∧
      AllWritten next 0x20 0x28 ∧ next.s = blk.s ∧ next.sWritten = blk.sWritten ∧ next.key = blk.key ∧
      next.keyWritten = blk.keyWritten ∧ next.errCmd = blk.errCmd ∧ next.errBusy = blk.errBusy) ∧
    (blk.phase = .decode → blk.r = 0 →
      next.phase = .idle ∧ next.done = true ∧ next.data[0] = blk.a - blk.s[0] ∧ next.data[1] = blk.b - blk.s[1] ∧
      AllWritten next 0x20 0x28 ∧ next.s = blk.s ∧ next.sWritten = blk.sWritten ∧ next.key = blk.key ∧
      next.keyWritten = blk.keyWritten ∧ next.errCmd = blk.errCmd ∧ next.errBusy = blk.errBusy)

/-- R31: no micro-step writes KEY or an error flag; EXPAND's write no DATA; ENCODE's and DECODE's write no S. -/
def Obligations.OperationsWriteOnlyTheirOutput : Prop :=
  ∀ blk : Block,
    (engineStep blk).key = blk.key ∧ (engineStep blk).keyWritten = blk.keyWritten ∧
    (blk.phase = .expand → (engineStep blk).data = blk.data ∧ (engineStep blk).dataWritten = blk.dataWritten) ∧
    (blk.phase = .encode ∨ blk.phase = .decode →
      (engineStep blk).s = blk.s ∧ (engineStep blk).sWritten = blk.sWritten ∧ (engineStep blk).l = blk.l ∧
      (engineStep blk).i = blk.i ∧ (engineStep blk).j = blk.j ∧ (engineStep blk).k = blk.k)

/-! ### The operations as a whole -/

/-- R120, R125 to R127: from any idle machine with the 16 KEY bytes written, EXPAND takes exactly 104 engine micro-steps, busy until the
last, and then S holds the function layer's Key Table of KEY, every byte written, whatever S and the hidden state held before; KEY and
DATA are as they were. -/
def Obligations.ExpandComputesTheKeyTable : Prop :=
  ∀ s : State, s.inputs = [] → busy s.block = false → AllWritten s.block 0x10 0x20 →
    ∃ t, exec .expand s = .next t ∧
      (∀ n < 104, ∃ u, runsTo n t u ∧ u.block.phase = .expand) ∧
      ∃ u, runsTo 104 t u ∧ u.block.phase = .idle ∧ u.block.done = true ∧ u.block.s = expandKey s.block.key ∧
        AllWritten u.block 0x40 0xA8 ∧ u.block.key = s.block.key ∧ u.block.keyWritten = s.block.keyWritten ∧
        u.block.data = s.block.data ∧ u.block.dataWritten = s.block.dataWritten ∧
        u.block.errCmd = s.block.errCmd ∧ u.block.errBusy = s.block.errBusy ∧ u.trace = .writeOkay :: s.trace

/-- R140, R143, R151: ENCODE takes exactly 13 micro-steps, busy until the last, and leaves in DATA what the function layer's `encode` gives
for S and DATA; S and KEY are as they were. -/
def Obligations.EncodeComputesTheCiphertext : Prop :=
  ∀ s : State, s.inputs = [] → busy s.block = false → AllWritten s.block 0x20 0x28 → AllWritten s.block 0x40 0xA8 →
    ∃ t, exec .encode s = .next t ∧
      (∀ n < 13, ∃ u, runsTo n t u ∧ u.block.phase = .encode) ∧
      ∃ u, runsTo 13 t u ∧ u.block.phase = .idle ∧ u.block.done = true ∧
        dataPair u.block = encodeBlock s.block.s (dataPair s.block) ∧ AllWritten u.block 0x20 0x28 ∧
        u.block.s = s.block.s ∧ u.block.sWritten = s.block.sWritten ∧ u.block.key = s.block.key ∧
        u.block.keyWritten = s.block.keyWritten ∧ u.block.errCmd = s.block.errCmd ∧ u.block.errBusy = s.block.errBusy

/-- R144, R146, R151: DECODE takes exactly 13 micro-steps, busy until the last, and leaves in DATA what the function layer's `decode`
gives for S and DATA; S and KEY are as they were. -/
def Obligations.DecodeComputesThePlaintext : Prop :=
  ∀ s : State, s.inputs = [] → busy s.block = false → AllWritten s.block 0x20 0x28 → AllWritten s.block 0x40 0xA8 →
    ∃ t, exec .decode s = .next t ∧
      (∀ n < 13, ∃ u, runsTo n t u ∧ u.block.phase = .decode) ∧
      ∃ u, runsTo 13 t u ∧ u.block.phase = .idle ∧ u.block.done = true ∧
        dataPair u.block = decodeBlock s.block.s (dataPair s.block) ∧ AllWritten u.block 0x20 0x28 ∧
        u.block.s = s.block.s ∧ u.block.sWritten = s.block.sWritten ∧ u.block.key = s.block.key ∧
        u.block.keyWritten = s.block.keyWritten ∧ u.block.errCmd = s.block.errCmd ∧ u.block.errBusy = s.block.errBusy

/-- R147: for any Key Table, not only an expanded one, `decode` undoes `encode` and `encode` undoes `decode`. -/
def Obligations.DecodeInvertsEncode : Prop :=
  ∀ (t : Vector Word 26) (p : Word × Word),
    decodeBlock t (encodeBlock t p) = p ∧ encodeBlock t (decodeBlock t p) = p

/-- R147, R188 on the machine: ENCODE, its 13 micro-steps, DECODE, and its 13 micro-steps restore DATA, and the other way round. -/
def Obligations.DecodeAfterEncodeRestoresData : Prop :=
  ∀ s : State, s.inputs = [] → busy s.block = false → AllWritten s.block 0x20 0x28 → AllWritten s.block 0x40 0xA8 →
    (∃ t u v w, exec .encode s = .next t ∧ runsTo 13 t u ∧ exec .decode u = .next v ∧ runsTo 13 v w ∧
      w.block.phase = .idle ∧ w.block.data = s.block.data ∧ w.block.s = s.block.s) ∧
    ∃ t u v w, exec .decode s = .next t ∧ runsTo 13 t u ∧ exec .encode u = .next v ∧ runsTo 13 v w ∧
      w.block.phase = .idle ∧ w.block.data = s.block.data ∧ w.block.s = s.block.s

/-- R104, R192: from every state whose engine control is as a run leaves it, with no input left, the running operation completes within
104 steps, and DONE is set. -/
def Obligations.EveryOperationCompletes : Prop :=
  ∀ s : State, ControlInv s.block → s.inputs = [] → busy s.block = true →
    ∃ n ≤ 104, ∃ t, runsTo n s t ∧ t.block.phase = .idle ∧ t.block.done = true

/-! ### Invariants -/

/-- The reset state meets both invariants. -/
def Obligations.ResetMeetsTheInvariants : Prop :=
  ControlInv State.reset.block ∧ ProgressInv State.reset.block

/-- Every step keeps the control invariant: DONE excludes BUSY (R25), the inputs of a running operation stay written (R99), the
counters stay in the ranges of R36 and where R123, R127 and R151 put them. -/
def Obligations.StepKeepsTheControlInvariant : Prop :=
  ∀ s t : State, ControlInv s.block → step s = .next t → ControlInv t.block

/-- Every step, whatever transactions come between the micro-steps, keeps what has been computed equal to what the function layer gives
for the inputs (R62, R65, R99). -/
def Obligations.StepKeepsTheProgressInvariant : Prop :=
  ∀ s t : State, ControlInv s.block → ProgressInv s.block → step s = .next t → ProgressInv t.block

/-- So a completion under any interleaving writes the function layer's result for the inputs that KEY, DATA and S hold (R62 (3), R110). -/
def Obligations.CompletionIsCorrectUnderEveryInterleaving : Prop :=
  ∀ s t : State, ControlInv s.block → ProgressInv s.block → step s = .next t → busy s.block = true → t.block.phase = .idle →
    (∀ rest, s.inputs ≠ .reset :: rest) →
    t.block.done = true ∧ t.trace = s.trace ∧
    (s.block.phase = .expand → t.block.s = expandKey s.block.key ∧ AllWritten t.block 0x40 0xA8) ∧
    (s.block.phase = .encode → dataPair t.block = encodeBlock s.block.s (dataPair s.block) ∧ AllWritten t.block 0x20 0x28) ∧
    (s.block.phase = .decode → dataPair t.block = decodeBlock s.block.s (dataPair s.block) ∧ AllWritten t.block 0x20 0x28)

/-! ### What a host can see -/

/-- R37: no transaction returns hidden state, an unwritten byte, or storage an operation is writing: two machines with equal host views answer
every instruction alike and keep equal views. -/
def Obligations.TransactionsShowTheHostViewOnly : Prop :=
  ∀ (i : Instr) (x y : State), SameView x y → OutcomesRelated SameView (exec i x) (exec i y)

/-- R37 and U4 over whole runs: two machines that differ only in hidden state without meaning and in bytes behind unwritten marks stay
indistinguishable at every step, so no response ever depends on the values log entries 2, 3 and 4 chose. -/
def Obligations.HiddenValuesNeverReachTheHost : Prop :=
  ∀ x y : State, ControlInv x.block → ControlInv y.block → Indistinguishable x y →
    OutcomesRelated Indistinguishable (step x) (step y)

/-! ### The host's side of the bus -/

/-- R51: `BASE + off` reaches offset `off`, only the 8 low bits of a system address matter, and the natural alignment of a system address is
that of its offset, for every BASE. -/
def Obligations.SystemAddressesReachTheirOffsets : Prop :=
  (∀ off : Offset, offsetOf (systemAddress off) = off ∧
    ∀ sz : Size, aligned sz off = true ↔ systemAddress off % sz.bytes = 0) ∧
  Config.base % 256 = 0 ∧ ∀ a b : Nat, a % 256 = b % 256 → offsetOf a = offsetOf b

/-- R71: the strobes of an aligned access give its size code, and strobes that are not one aligned run of 1, 2 or 4 lanes give the reserved
code, so that such a write is a bus error. -/
def Obligations.StrobesGiveTheSizeCode : Prop :=
  (∀ (sz : Size) (off : Offset), aligned sz off = true → strobeSize (accessLanes sz off) = sz.code) ∧
  ∀ (addr : Nat) (strobes : Lanes) (wdata : Word) (s : State) (rest : List Input),
    (∀ (sz : Size) (off : Offset), aligned sz off = true → strobes ≠ accessLanes sz off) →
    s.inputs = strobedWrite addr strobes wdata :: rest →
    step s = .next { s with
      inputs := rest, trace := .error (offsetOf addr) none .rsvdSize :: s.trace }
end

