-- ==== Sys2Proof/Laws/Arith.lean ====
section
/-! SUPPORT. Byte lanes of packed and merged words, and which lanes an access covers. -/

namespace Sys2Proof.Machine

theorem getLsbD_byteLane (w : Word) (k i : Nat) :
    (byteLane w k).getLsbD i = (decide (i < 8) && w.getLsbD (8 * k + i)) := by
  simp [byteLane]

/-- The bits of a packed word, lane by lane. -/
theorem getLsbD_pack4 (b0 b1 b2 b3 : Byte) (i : Nat) :
    (pack4 b0 b1 b2 b3).getLsbD i =
      if i < 8 then b0.getLsbD i else if i < 16 then b1.getLsbD (i - 8)
      else if i < 24 then b2.getLsbD (i - 16) else if i < 32 then b3.getLsbD (i - 24) else false := by
  have h (b : Byte) (n : Nat) (hn : 8 ≤ n) : b.getLsbD n = false := BitVec.getLsbD_of_ge b n hn
  simp only [pack4, BitVec.getLsbD_or, BitVec.getLsbD_setWidth, BitVec.getLsbD_shiftLeft]
  by_cases h0 : i < 8
  · simp [h0, show i < 32 by omega, show i < 16 by omega, show i < 24 by omega]
  by_cases h1 : i < 16
  · simp [h0, h1, show i < 32 by omega, show i - 8 < 32 by omega, show i < 24 by omega, h b0 i (by omega)]
  by_cases h2 : i < 24
  · simp [h0, h1, h2, show i < 32 by omega, show i - 8 < 32 by omega, show i - 16 < 32 by omega,
      h b0 i (by omega), h b1 (i - 8) (by omega)]
  by_cases h3 : i < 32
  · simp [h0, h1, h2, h3, show i - 8 < 32 by omega, show i - 16 < 32 by omega, show i - 24 < 32 by omega,
      h b0 i (by omega), h b1 (i - 8) (by omega), h b2 (i - 16) (by omega)]
  · simp [h0, h1, h2, h3]

@[simp] theorem byteLane_pack4_zero (b0 b1 b2 b3 : Byte) : byteLane (pack4 b0 b1 b2 b3) 0 = b0 := by
  apply BitVec.eq_of_getLsbD_eq; intro i hi
  rw [getLsbD_byteLane, getLsbD_pack4]; simp [hi]

@[simp] theorem byteLane_pack4_one (b0 b1 b2 b3 : Byte) : byteLane (pack4 b0 b1 b2 b3) 1 = b1 := by
  apply BitVec.eq_of_getLsbD_eq; intro i hi
  rw [getLsbD_byteLane, getLsbD_pack4]; simp [hi, show 8 + i < 16 by omega]

@[simp] theorem byteLane_pack4_two (b0 b1 b2 b3 : Byte) : byteLane (pack4 b0 b1 b2 b3) 2 = b2 := by
  apply BitVec.eq_of_getLsbD_eq; intro i hi
  rw [getLsbD_byteLane, getLsbD_pack4]
  simp [hi, show ¬ 16 + i < 8 by omega, show 16 + i < 24 by omega]

@[simp] theorem byteLane_pack4_three (b0 b1 b2 b3 : Byte) : byteLane (pack4 b0 b1 b2 b3) 3 = b3 := by
  apply BitVec.eq_of_getLsbD_eq; intro i hi
  rw [getLsbD_byteLane, getLsbD_pack4]
  simp [hi, show ¬ 24 + i < 8 by omega, show ¬ 24 + i < 16 by omega,
    show 24 + i < 32 by omega]

/-- Two words with the same byte lanes are the same word. -/
theorem word_ext_lanes {v w : Word} (h : ∀ k < 4, byteLane v k = byteLane w k) : v = w := by
  apply BitVec.eq_of_getLsbD_eq; intro i hi
  have := congrArg (fun b => b.getLsbD (i % 8)) (h (i / 8) (by omega))
  simp only [getLsbD_byteLane, show 8 * (i / 8) + i % 8 = i by omega] at this
  simpa [show i % 8 < 8 by omega] using this

/-- A statement about four lanes is one about each. -/
theorem forall_lane {p : Nat → Prop} : (∀ k < 4, p k) ↔ p 0 ∧ p 1 ∧ p 2 ∧ p 3 := by
  constructor
  · intro h; exact ⟨h 0 (by omega), h 1 (by omega), h 2 (by omega), h 3 (by omega)⟩
  · rintro ⟨h0, h1, h2, h3⟩ k hk
    match k, hk with
    | 0, _ => exact h0
    | 1, _ => exact h1
    | 2, _ => exact h2
    | 3, _ => exact h3

theorem byteLane_mergeLanes (lanes : Lanes) (new old : Word) (k : Nat) (hk : k < 4) :
    byteLane (mergeLanes lanes new old) k = if lanes.getLsbD k then byteLane new k else byteLane old k := by
  match k, hk with
  | 0, _ => simp [mergeLanes]
  | 1, _ => simp [mergeLanes]
  | 2, _ => simp [mergeLanes]
  | 3, _ => simp [mergeLanes]

@[simp] theorem byteLane_zero (k : Nat) : byteLane 0#32 k = 0#8 := by simp [byteLane]

theorem byteLane_readLanes (lanes : Lanes) (value : Word) (k : Nat) (hk : k < 4) :
    byteLane (readLanes lanes value) k = if lanes.getLsbD k then byteLane value k else 0#8 := by
  simp [readLanes, byteLane_mergeLanes _ _ _ _ hk]

theorem laneOf_lt (off : Offset) : laneOf off < 4 := by unfold laneOf; omega

/-- The sizes divide 4, so that alignment is a matter of the lane. -/
theorem aligned_iff (sz : Size) (off : Offset) : aligned sz off = true ↔ laneOf off % sz.bytes = 0 := by
  unfold aligned laneOf
  cases sz <;> simp only [Size.bytes, beq_iff_eq] <;> omega

/-- An aligned access stays within its register. -/
theorem lane_add_bytes_le {sz : Size} {off : Offset} (h : aligned sz off = true) : laneOf off + sz.bytes ≤ 4 := by
  have := laneOf_lt off
  rw [aligned_iff] at h
  cases sz <;> simp only [Size.bytes] at * <;> omega

/-- The lanes of an access are those of its own bytes (R72, R73). -/
theorem getLsbD_accessLanes (sz : Size) (off : Offset) {k : Nat} (hk : k < 4) :
    (accessLanes sz off).getLsbD k = decide (laneOf off ≤ k ∧ k < laneOf off + sz.bytes) := by
  have hl := laneOf_lt off
  simp only [accessLanes]
  generalize laneOf off = l at *
  match l, hl, k, hk with
  | 0, _, 0, _ | 0, _, 1, _ | 0, _, 2, _ | 0, _, 3, _ => cases sz <;> decide
  | 1, _, 0, _ | 1, _, 1, _ | 1, _, 2, _ | 1, _, 3, _ => cases sz <;> decide
  | 2, _, 0, _ | 2, _, 1, _ | 2, _, 2, _ | 2, _, 3, _ => cases sz <;> decide
  | 3, _, 0, _ | 3, _, 1, _ | 3, _, 2, _ | 3, _, 3, _ => cases sz <;> decide

end Sys2Proof.Machine
end

