-- ==== Sys2Proof/Laws/Cipher.lean ====
section
/-! SUPPORT. The function layer: rotations as core's, the words of a table, and the initialisation micro-steps one by one. -/

namespace Sys2Proof.Machine

theorem rotl32_eq_rotateLeft (v : Word) (n : Nat) : rotl32 v n = v.rotateLeft n := by
  unfold rotl32
  by_cases h : n % 32 = 0
  · simp only [h, BitVec.rotateLeft, BitVec.rotateLeftAux, ite_true]
    ext i hi
    simp
  · simp [h, BitVec.rotateLeft, BitVec.rotateLeftAux]

theorem rotr32_eq_rotateRight (v : Word) (n : Nat) : rotr32 v n = v.rotateRight n := by
  unfold rotr32
  by_cases h : n % 32 = 0
  · simp [h, BitVec.rotateRight, BitVec.rotateRightAux]
  · simp [h, BitVec.rotateRight, BitVec.rotateRightAux]

theorem low5_eq_mod (w : Word) : low5 w = w.toNat % 32 := by simp [low5]

theorem tableWord_of_lt (t : Vector Word 26) {n : Nat} (h : n < 26) : tableWord t n = t[n] := by simp [tableWord, h]

/-- Two tables with the same 26 words are the same table. -/
theorem table_ext {t u : Vector Word 26} (h : ∀ n < 26, tableWord t n = tableWord u n) : t = u := by
  apply Vector.ext
  intro n hn
  have := h n hn
  rwa [tableWord_of_lt _ hn, tableWord_of_lt _ hn] at this

/-- An initialisation micro-step writes its own word only. -/
theorem tableWord_initOne (t : Vector Word 26) (n : Nat) {m : Nat} (h : m < 26) :
    tableWord (initOne t n) m = if m = n then initWord t n else tableWord t m := by
  rw [tableWord_of_lt _ h, tableWord_of_lt _ h, initOne, Vector.getElem_setIfInBounds h]
  simp [eq_comm]

/-- An initialisation micro-step reads only the words before its own. -/
theorem initWord_congr_below {t u : Vector Word 26} {m : Nat} (h : ∀ n < m, tableWord t n = tableWord u n) :
    initWord t m = initWord u m := by
  unfold initWord
  split
  · rfl
  · rw [h _ (by omega)]

end Sys2Proof.Machine
end

