-- ==== Sys2Proof/Laws/Decode.lean ====
section
/-! SUPPORT. The bus decoder reads its row and size from the header alone: WDATA only passes through. So a claim about every bus
word is a claim about the 2048 headers, which the kernel can go through. -/

namespace Sys2Proof

/-- The row and the size of a header, or its bus error: the decoder without WDATA. -/
def headerRow (h : Header) : Except BusErrorKind (BusRow × Size) :=
  match Size.ofCode (headerSz h) with
  | none => .error .rsvdSize
  | some sz =>
    match busRows.find? (fun row => row.covers h) with
    | none => .error (noRowKind h)
    | some row => if aligned sz (headerOff h) then .ok (row, sz) else .error .misaligned

theorem decodeBus_eq (h : Header) (wdata : Word) :
    decodeBus h wdata =
      match headerRow h with
      | .ok (row, sz) => .ok (row.instr sz (headerOff h) wdata)
      | .error kind => .error kind := by
  unfold decodeBus headerRow
  cases Size.ofCode (headerSz h) with
  | none => rfl
  | some sz =>
    cases busRows.find? (fun row => row.covers h) with
    | none => rfl
    | some row => cases h0 : aligned sz (headerOff h) <;> simp [h0]

theorem decodeBus_error_iff {h : Header} {wdata : Word} {kind : BusErrorKind} :
    decodeBus h wdata = .error kind ↔ headerRow h = .error kind := by
  rw [decodeBus_eq]
  cases headerRow h <;> simp

theorem decodeBus_ok_iff {h : Header} {wdata : Word} {i : Instr} :
    decodeBus h wdata = .ok i ↔ ∃ row sz, headerRow h = .ok (row, sz) ∧ row.instr sz (headerOff h) wdata = i := by
  rw [decodeBus_eq]
  cases headerRow h with
  | error k => simp
  | ok p => obtain ⟨row, sz⟩ := p; simp

/-- A property of the header of every accepted bus word, checked header by header. -/
theorem headerRow_ok {h : Header} {row : BusRow} {sz : Size} (e : headerRow h = .ok (row, sz)) :
    row.covers h = true ∧ headerSz h = sz.code ∧ aligned sz (headerOff h) = true := by
  unfold headerRow at e
  split at e
  · cases e
  · next sz' hs =>
    split at e
    · cases e
    · next row' hr =>
      split at e
      · next ha =>
        cases e
        refine ⟨List.find?_some (p := fun row : BusRow => row.covers h) hr, ?_, ha⟩
        revert hs; generalize headerSz h = c; cases sz <;> revert c <;> decide
      · cases e

theorem decodeCommand_some_iff {c : Word} {cmd : Command} : decodeCommand c = some cmd ↔ c = cmd.word := by
  constructor
  · intro h
    unfold decodeCommand at h
    split at h
    · next e => cases h; exact e
    · split at h
      · next e => cases h; exact e
      · split at h
        · next e => cases h; exact e
        · split at h
          · next e => cases h; exact e
          · cases h
  · rintro rfl
    match cmd with
    | .nop => rfl
    | .run .expand => rfl
    | .run .encode => rfl
    | .run .decode => rfl

end Sys2Proof
end

