-- ==== Sys2Proof/Laws/State.lean ====
section
/-! SUPPORT. What each update of the state and of the block leaves in each field, by `rfl`, so that no proof unfolds a record
update. -/

namespace Sys2Proof.Machine

section respond
variable (r : Response) (s : State)
@[simp] theorem respond_block : (respond r s).block = s.block := rfl
@[simp] theorem respond_inputs : (respond r s).inputs = s.inputs := rfl
@[simp] theorem respond_trace : (respond r s).trace = r :: s.trace := rfl
@[simp] theorem respond_drawIndex : (respond r s).drawIndex = s.drawIndex := rfl
end respond

section onBlock
variable (f : Block → Block) (s : State)
@[simp] theorem onBlock_block : (onBlock f s).block = f s.block := rfl
@[simp] theorem onBlock_inputs : (onBlock f s).inputs = s.inputs := rfl
@[simp] theorem onBlock_trace : (onBlock f s).trace = s.trace := rfl
@[simp] theorem onBlock_drawIndex : (onBlock f s).drawIndex = s.drawIndex := rfl
end onBlock

section raiseBusError
variable (off : Offset) (size : Option Size) (kind : BusErrorKind) (s : State)
@[simp] theorem raiseBusError_block : (raiseBusError off size kind s).block = s.block := rfl
@[simp] theorem raiseBusError_inputs : (raiseBusError off size kind s).inputs = s.inputs := rfl
@[simp] theorem raiseBusError_trace :
    (raiseBusError off size kind s).trace = .error off size kind :: s.trace := rfl
@[simp] theorem raiseBusError_drawIndex : (raiseBusError off size kind s).drawIndex = s.drawIndex := rfl
end raiseBusError

section dropWrite
variable (s : State)
@[simp] theorem dropWrite_block : (dropWrite s).block = setErrBusy s.block := rfl
@[simp] theorem dropWrite_inputs : (dropWrite s).inputs = s.inputs := rfl
@[simp] theorem dropWrite_trace : (dropWrite s).trace = .writeOkay :: s.trace := rfl
@[simp] theorem dropWrite_drawIndex : (dropWrite s).drawIndex = s.drawIndex := rfl
end dropWrite

section turns
variable (s : State)
@[simp] theorem engineTurn_block : (engineTurn s).block = engineStep s.block := rfl
@[simp] theorem engineTurn_inputs : (engineTurn s).inputs = s.inputs := rfl
@[simp] theorem engineTurn_trace : (engineTurn s).trace = s.trace := rfl
@[simp] theorem engineTurn_drawIndex : (engineTurn s).drawIndex = s.drawIndex := rfl
@[simp] theorem resetTurn_block : (resetTurn s).block = Block.reset := rfl
@[simp] theorem resetTurn_inputs : (resetTurn s).inputs = s.inputs := rfl
@[simp] theorem resetTurn_trace : (resetTurn s).trace = s.trace := rfl
@[simp] theorem resetTurn_drawIndex : (resetTurn s).drawIndex = s.drawIndex := rfl
end turns

section status
variable (v : Word) (blk : Block)
@[simp] theorem setErrBusy_phase : (setErrBusy blk).phase = blk.phase := rfl
@[simp] theorem setErrBusy_done : (setErrBusy blk).done = blk.done := rfl
@[simp] theorem setErrBusy_errCmd : (setErrBusy blk).errCmd = blk.errCmd := rfl
@[simp] theorem setErrBusy_errBusy : (setErrBusy blk).errBusy = true := rfl
@[simp] theorem setErrCmd_phase : (setErrCmd blk).phase = blk.phase := rfl
@[simp] theorem setErrCmd_done : (setErrCmd blk).done = blk.done := rfl
@[simp] theorem setErrCmd_errCmd : (setErrCmd blk).errCmd = true := rfl
@[simp] theorem setErrCmd_errBusy : (setErrCmd blk).errBusy = blk.errBusy := rfl
@[simp] theorem clearStatus_phase : (clearStatus v blk).phase = blk.phase := rfl
@[simp] theorem clearStatus_done : (clearStatus v blk).done = (blk.done && !v.getLsbD 1) := rfl
@[simp] theorem clearStatus_errCmd : (clearStatus v blk).errCmd = (blk.errCmd && !v.getLsbD 2) := rfl
@[simp] theorem clearStatus_errBusy : (clearStatus v blk).errBusy = (blk.errBusy && !v.getLsbD 3) := rfl
@[simp] theorem busy_setErrBusy : busy (setErrBusy blk) = busy blk := rfl
@[simp] theorem busy_setErrCmd : busy (setErrCmd blk) = busy blk := rfl
@[simp] theorem busy_clearStatus : busy (clearStatus v blk) = busy blk := rfl
end status

section stores
variable (lanes : Lanes) (wdata : Word) (blk : Block)
@[simp] theorem storeKey_phase (idx : Fin 4) : (storeKey idx lanes wdata blk).phase = blk.phase := rfl
@[simp] theorem storeKey_key (idx : Fin 4) :
    (storeKey idx lanes wdata blk).key = blk.key.set idx (mergeLanes lanes wdata blk.key[idx]) := rfl
@[simp] theorem storeKey_keyWritten (idx : Fin 4) :
    (storeKey idx lanes wdata blk).keyWritten = blk.keyWritten.set idx (blk.keyWritten[idx] ||| lanes) := rfl
@[simp] theorem storeKey_data (idx : Fin 4) : (storeKey idx lanes wdata blk).data = blk.data := rfl
@[simp] theorem storeKey_dataWritten (idx : Fin 4) :
    (storeKey idx lanes wdata blk).dataWritten = blk.dataWritten := rfl
@[simp] theorem storeKey_s (idx : Fin 4) : (storeKey idx lanes wdata blk).s = blk.s := rfl
@[simp] theorem storeKey_sWritten (idx : Fin 4) : (storeKey idx lanes wdata blk).sWritten = blk.sWritten := rfl
@[simp] theorem storeData_phase (idx : Fin 2) : (storeData idx lanes wdata blk).phase = blk.phase := rfl
@[simp] theorem storeData_data (idx : Fin 2) :
    (storeData idx lanes wdata blk).data = blk.data.set idx (mergeLanes lanes wdata blk.data[idx]) := rfl
@[simp] theorem storeData_dataWritten (idx : Fin 2) :
    (storeData idx lanes wdata blk).dataWritten = blk.dataWritten.set idx (blk.dataWritten[idx] ||| lanes) := rfl
@[simp] theorem storeData_key (idx : Fin 2) : (storeData idx lanes wdata blk).key = blk.key := rfl
@[simp] theorem storeData_keyWritten (idx : Fin 2) :
    (storeData idx lanes wdata blk).keyWritten = blk.keyWritten := rfl
@[simp] theorem storeData_s (idx : Fin 2) : (storeData idx lanes wdata blk).s = blk.s := rfl
@[simp] theorem storeData_sWritten (idx : Fin 2) : (storeData idx lanes wdata blk).sWritten = blk.sWritten := rfl
@[simp] theorem storeTable_phase (idx : Fin 26) : (storeTable idx lanes wdata blk).phase = blk.phase := rfl
@[simp] theorem storeTable_s (idx : Fin 26) :
    (storeTable idx lanes wdata blk).s = blk.s.set idx (mergeLanes lanes wdata blk.s[idx]) := rfl
@[simp] theorem storeTable_sWritten (idx : Fin 26) :
    (storeTable idx lanes wdata blk).sWritten = blk.sWritten.set idx (blk.sWritten[idx] ||| lanes) := rfl
@[simp] theorem storeTable_key (idx : Fin 26) : (storeTable idx lanes wdata blk).key = blk.key := rfl
@[simp] theorem storeTable_keyWritten (idx : Fin 26) :
    (storeTable idx lanes wdata blk).keyWritten = blk.keyWritten := rfl
@[simp] theorem storeTable_data (idx : Fin 26) : (storeTable idx lanes wdata blk).data = blk.data := rfl
@[simp] theorem storeTable_dataWritten (idx : Fin 26) :
    (storeTable idx lanes wdata blk).dataWritten = blk.dataWritten := rfl
end stores

section engine
variable (x : Word × Word) (y : Mix) (blk : Block)
@[simp] theorem finish_phase : (finish blk).phase = .idle := rfl
@[simp] theorem finish_done : (finish blk).done = true := rfl
@[simp] theorem finish_errCmd : (finish blk).errCmd = blk.errCmd := rfl
@[simp] theorem finish_errBusy : (finish blk).errBusy = blk.errBusy := rfl
@[simp] theorem finish_key : (finish blk).key = blk.key := rfl
@[simp] theorem finish_keyWritten : (finish blk).keyWritten = blk.keyWritten := rfl
@[simp] theorem finish_data : (finish blk).data = blk.data := rfl
@[simp] theorem finish_dataWritten : (finish blk).dataWritten = blk.dataWritten := rfl
@[simp] theorem finish_s : (finish blk).s = blk.s := rfl
@[simp] theorem finish_sWritten : (finish blk).sWritten = blk.sWritten := rfl
@[simp] theorem finish_m : (finish blk).m = blk.m := rfl
@[simp] theorem finish_k : (finish blk).k = blk.k := rfl
@[simp] theorem finish_r : (finish blk).r = blk.r := rfl
@[simp] theorem putData_data : (putData x blk).data = #v[x.1, x.2] := rfl
@[simp] theorem putData_dataWritten : (putData x blk).dataWritten = #v[allLanes, allLanes] := rfl
@[simp] theorem putData_s : (putData x blk).s = blk.s := rfl
@[simp] theorem putData_sWritten : (putData x blk).sWritten = blk.sWritten := rfl
@[simp] theorem putData_key : (putData x blk).key = blk.key := rfl
@[simp] theorem putData_keyWritten : (putData x blk).keyWritten = blk.keyWritten := rfl
@[simp] theorem putData_errCmd : (putData x blk).errCmd = blk.errCmd := rfl
@[simp] theorem putData_errBusy : (putData x blk).errBusy = blk.errBusy := rfl
@[simp] theorem putData_m : (putData x blk).m = blk.m := rfl
@[simp] theorem putData_k : (putData x blk).k = blk.k := rfl
@[simp] theorem putData_r : (putData x blk).r = blk.r := rfl
@[simp] theorem markTable_sWritten : (markTable blk).sWritten = Vector.replicate 26 allLanes := rfl
@[simp] theorem markTable_s : (markTable blk).s = blk.s := rfl
@[simp] theorem markTable_key : (markTable blk).key = blk.key := rfl
@[simp] theorem markTable_keyWritten : (markTable blk).keyWritten = blk.keyWritten := rfl
@[simp] theorem markTable_data : (markTable blk).data = blk.data := rfl
@[simp] theorem markTable_dataWritten : (markTable blk).dataWritten = blk.dataWritten := rfl
@[simp] theorem markTable_errCmd : (markTable blk).errCmd = blk.errCmd := rfl
@[simp] theorem markTable_errBusy : (markTable blk).errBusy = blk.errBusy := rfl
@[simp] theorem markTable_m : (markTable blk).m = blk.m := rfl
@[simp] theorem markTable_k : (markTable blk).k = blk.k := rfl
@[simp] theorem markTable_r : (markTable blk).r = blk.r := rfl
@[simp] theorem mixOf_withMix : mixOf (withMix y blk) = y := rfl
@[simp] theorem withMix_phase : (withMix y blk).phase = blk.phase := rfl
@[simp] theorem withMix_done : (withMix y blk).done = blk.done := rfl
@[simp] theorem withMix_errCmd : (withMix y blk).errCmd = blk.errCmd := rfl
@[simp] theorem withMix_errBusy : (withMix y blk).errBusy = blk.errBusy := rfl
@[simp] theorem withMix_key : (withMix y blk).key = blk.key := rfl
@[simp] theorem withMix_keyWritten : (withMix y blk).keyWritten = blk.keyWritten := rfl
@[simp] theorem withMix_data : (withMix y blk).data = blk.data := rfl
@[simp] theorem withMix_dataWritten : (withMix y blk).dataWritten = blk.dataWritten := rfl
@[simp] theorem withMix_s : (withMix y blk).s = y.s := rfl
@[simp] theorem withMix_l : (withMix y blk).l = y.l := rfl
@[simp] theorem withMix_a : (withMix y blk).a = y.a := rfl
@[simp] theorem withMix_b : (withMix y blk).b = y.b := rfl
@[simp] theorem withMix_i : (withMix y blk).i = y.i := rfl
@[simp] theorem withMix_j : (withMix y blk).j = y.j := rfl
@[simp] theorem withMix_sWritten : (withMix y blk).sWritten = blk.sWritten := rfl
@[simp] theorem withMix_m : (withMix y blk).m = blk.m := rfl
@[simp] theorem withMix_k : (withMix y blk).k = blk.k := rfl
@[simp] theorem withMix_r : (withMix y blk).r = blk.r := rfl
end engine

end Sys2Proof.Machine
end

