-- ==== Sys2Proof/Laws/Engine.lean ====
section
/-! SUPPORT. What an engine micro-step does, case by case, and what no micro-step touches. -/

namespace Sys2Proof.Machine

theorem busy_iff {blk : Block} : busy blk = true ↔ blk.phase ≠ .idle := by simp [busy]

theorem busy_false_iff {blk : Block} : busy blk = false ↔ blk.phase = .idle := by simp [busy]

section expand
variable {blk : Block}

/-- An initialisation micro-step before the last. -/
theorem expandMicro_init (h : blk.m + 1 < 26) :
    expandMicro blk = { blk with s := initOne blk.s blk.m, m := blk.m + 1 } := by
  simp [expandMicro, Config.tableWords, h, show blk.m < 26 by omega]

/-- The last initialisation micro-step. -/
theorem expandMicro_lastInit (h : blk.m = 25) :
    expandMicro blk = { withMix (mixStart (initOne blk.s 25) blk.l) blk with m := 26, k := 0 } := by
  simp [expandMicro, Config.tableWords, h]

/-- A mixing micro-step before the last. -/
theorem expandMicro_mix (hm : 26 ≤ blk.m) (hk : blk.k + 1 < 78) :
    expandMicro blk = { withMix (mixOne (mixOf blk)) blk with k := blk.k + 1 } := by
  simp [expandMicro, Config.tableWords, Config.mixSteps, hk, show ¬ blk.m < 26 by omega]

/-- The last mixing micro-step, the completion of EXPAND. -/
theorem expandMicro_lastMix (hm : 26 ≤ blk.m) (hk : ¬ blk.k + 1 < 78) :
    expandMicro blk = finish (markTable { withMix (mixOne (mixOf blk)) blk with k := blk.k + 1 }) := by
  simp [expandMicro, Config.tableWords, Config.mixSteps, hk, show ¬ blk.m < 26 by omega]

/-- Every EXPAND micro-step is one of the four. -/
theorem expandMicro_cases (blk : Block) :
    (blk.m + 1 < 26 ∧ expandMicro blk = { blk with s := initOne blk.s blk.m, m := blk.m + 1 }) ∨
      (blk.m = 25 ∧ expandMicro blk = { withMix (mixStart (initOne blk.s 25) blk.l) blk with m := 26, k := 0 }) ∨
      (26 ≤ blk.m ∧ blk.k + 1 < 78 ∧ expandMicro blk = { withMix (mixOne (mixOf blk)) blk with k := blk.k + 1 }) ∨
      (26 ≤ blk.m ∧ ¬ blk.k + 1 < 78 ∧
        expandMicro blk = finish (markTable { withMix (mixOne (mixOf blk)) blk with k := blk.k + 1 })) := by
  rcases Nat.lt_trichotomy blk.m 25 with h | h | h
  · exact .inl ⟨by omega, expandMicro_init (by omega)⟩
  · exact .inr (.inl ⟨h, expandMicro_lastInit h⟩)
  · by_cases hk : blk.k + 1 < 78
    · exact .inr (.inr (.inl ⟨h, hk, expandMicro_mix h hk⟩))
    · exact .inr (.inr (.inr ⟨h, hk, expandMicro_lastMix h hk⟩))

end expand

/-- Every ENCODE micro-step is the whitening, a round before the twelfth, or the last round, which completes. -/
theorem encodeMicro_cases (blk : Block) :
    (blk.r = 0 ∧ encodeMicro blk =
        { blk with a := (whiten blk.s (dataPair blk)).1, b := (whiten blk.s (dataPair blk)).2, r := 1 }) ∨
      (blk.r ≠ 0 ∧ blk.r < 12 ∧ encodeMicro blk =
        { blk with
          a := (encodeRound blk.s blk.r (blk.a, blk.b)).1
          b := (encodeRound blk.s blk.r (blk.a, blk.b)).2
          r := blk.r + 1 }) ∨
      (12 ≤ blk.r ∧ encodeMicro blk =
        finish (putData (encodeRound blk.s blk.r (blk.a, blk.b))
          { blk with
            a := (encodeRound blk.s blk.r (blk.a, blk.b)).1
            b := (encodeRound blk.s blk.r (blk.a, blk.b)).2
            r := blk.r + 1 })) := by
  by_cases h0 : blk.r = 0
  · exact .inl ⟨h0, by simp [encodeMicro, h0]⟩
  · by_cases h1 : blk.r < 12
    · exact .inr (.inl ⟨h0, h1, by simp [encodeMicro, h0, h1]⟩)
    · exact .inr (.inr ⟨by omega, by simp [encodeMicro, h0, h1]⟩)

/-- Every DECODE micro-step is the un-whitening, which completes, or a round. -/
theorem decodeMicro_cases (blk : Block) :
    (blk.r = 0 ∧ decodeMicro blk = finish (putData (unwhiten blk.s (blk.a, blk.b)) blk)) ∨
      (blk.r ≠ 0 ∧ decodeMicro blk =
        { blk with
          a := (decodeRound blk.s blk.r (blk.a, blk.b)).1
          b := (decodeRound blk.s blk.r (blk.a, blk.b)).2
          r := blk.r - 1 }) := by
  by_cases h0 : blk.r = 0
  · exact .inl ⟨h0, by simp [decodeMicro, h0]⟩
  · exact .inr ⟨h0, by simp [decodeMicro, h0]⟩

theorem engineStep_idle {blk : Block} (h : blk.phase = .idle) : engineStep blk = blk := by simp [engineStep, h]
theorem engineStep_expand {blk : Block} (h : blk.phase = .expand) : engineStep blk = expandMicro blk := by
  simp [engineStep, h]
theorem engineStep_encode {blk : Block} (h : blk.phase = .encode) : engineStep blk = encodeMicro blk := by
  simp [engineStep, h]
theorem engineStep_decode {blk : Block} (h : blk.phase = .decode) : engineStep blk = decodeMicro blk := by
  simp [engineStep, h]

/-- What holds of each of the three micro-steps, and of a block at rest, holds of an engine step. -/
theorem engineStep_induct {p : Block → Block → Prop} (blk : Block) (idle : p blk blk)
    (expand : p blk (expandMicro blk)) (encode : p blk (encodeMicro blk)) (decode : p blk (decodeMicro blk)) :
    p blk (engineStep blk) := by
  unfold engineStep
  split <;> assumption

/-- The accepted operation's phase, with DONE cleared (R104). -/
@[simp] theorem accept_done (op : Operation) (blk : Block) : (accept op blk).done = false := by
  cases op <;> rfl
@[simp] theorem accept_errCmd (op : Operation) (blk : Block) : (accept op blk).errCmd = blk.errCmd := by
  cases op <;> rfl
@[simp] theorem accept_errBusy (op : Operation) (blk : Block) : (accept op blk).errBusy = blk.errBusy := by
  cases op <;> rfl
@[simp] theorem accept_key (op : Operation) (blk : Block) : (accept op blk).key = blk.key := by cases op <;> rfl
@[simp] theorem accept_keyWritten (op : Operation) (blk : Block) :
    (accept op blk).keyWritten = blk.keyWritten := by cases op <;> rfl
@[simp] theorem accept_data (op : Operation) (blk : Block) : (accept op blk).data = blk.data := by cases op <;> rfl
@[simp] theorem accept_dataWritten (op : Operation) (blk : Block) :
    (accept op blk).dataWritten = blk.dataWritten := by cases op <;> rfl
@[simp] theorem accept_s (op : Operation) (blk : Block) : (accept op blk).s = blk.s := by cases op <;> rfl
@[simp] theorem accept_sWritten (op : Operation) (blk : Block) :
    (accept op blk).sWritten = blk.sWritten := by cases op <;> rfl
@[simp] theorem busy_accept (op : Operation) (blk : Block) : busy (accept op blk) = true := by cases op <;> rfl

end Sys2Proof.Machine
end

