-- ==== Sys2Proof/Laws/Flags.lean ====
section
/-! SUPPORT. The bits of STATUS as a bus read returns it. -/

namespace Sys2Proof.Machine

/-- `cat` of the four status bits, bit by bit. -/
theorem getLsbD_statusBits (e c d b : Bool) : ∀ k < 32,
    BitVec.getLsbD (w := 32) (0#28 ++ BitVec.ofBool e ++ BitVec.ofBool c ++ BitVec.ofBool d ++ BitVec.ofBool b) k =
      (if k = 0 then b else if k = 1 then d else if k = 2 then c else if k = 3 then e else false) := by
  revert e c d b; decide

theorem getLsbD_statusWord (blk : Block) (k : Nat) :
    (statusWord blk).getLsbD k =
      if k = 0 then busy blk else if k = 1 then blk.done else if k = 2 then blk.errCmd
      else if k = 3 then blk.errBusy else false := by
  by_cases hk : k < 32
  · exact getLsbD_statusBits _ _ _ _ k hk
  · rw [BitVec.getLsbD_of_ge _ _ (by omega)]
    simp [show k ≠ 0 by omega, show k ≠ 1 by omega, show k ≠ 2 by omega, show k ≠ 3 by omega]

end Sys2Proof.Machine
end

