-- ==== Sys2Proof/Laws/Ops.lean ====
section
/-! SUPPORT. One lemma for each shared operation: everything it can do. -/

namespace Sys2Proof.Machine

section guard
variable {sz : Size} {off : Offset} {s t : State} {result : Host.Outcome State Fault Refusal}

theorem guardAligned_of_aligned (h : aligned sz off = true) : guardAligned sz off s result = result := by
  simp [guardAligned, h]

theorem guardAligned_of_misaligned (h : aligned sz off = false) :
    guardAligned sz off s result = .next (raiseBusError off (some sz) .misaligned s) := by
  simp [guardAligned, h]

/-- A guarded access goes on to `t` by the bus error, or because what it guards does. -/
theorem guardAligned_next (h : guardAligned sz off s result = .next t) :
    (aligned sz off = false ∧ t = raiseBusError off (some sz) .misaligned s) ∨
      (aligned sz off = true ∧ result = .next t) := by
  cases ha : aligned sz off with
  | false => rw [guardAligned_of_misaligned ha] at h; cases h; exact .inl ⟨rfl, rfl⟩
  | true => rw [guardAligned_of_aligned ha] at h; exact .inr ⟨rfl, h⟩

end guard

/-- Marks cover lanes when each lane is marked. -/
theorem lanesWritten_iff {lanes written : Lanes} :
    lanesWritten lanes written = true ↔ ∀ k < 4, lanes.getLsbD k = true → written.getLsbD k = true := by
  unfold lanesWritten
  revert lanes written
  decide

@[simp] theorem lanesWritten_allLanes (lanes : Lanes) : lanesWritten lanes allLanes = true := by
  revert lanes; decide

section reads
variable {sz : Size} {off : Offset} {value : Word} {written : Lanes} {s t : State}

/-- A read that goes on has answered: the block, the inputs and the draws stay. -/
theorem readConstant_next (h : readConstant sz off value s = .next t) :
    ∃ r, t = respond r s := by
  rcases guardAligned_next h with ⟨_, rfl⟩ | ⟨_, h⟩
  · exact ⟨_, rfl⟩
  · cases h; exact ⟨_, rfl⟩

theorem readStored_next (h : readStored sz off value written s = .next t) : ∃ r, t = respond r s := by
  rcases guardAligned_next h with ⟨_, rfl⟩ | ⟨_, h⟩
  · exact ⟨_, rfl⟩
  · split at h
    · cases h; exact ⟨_, rfl⟩
    · cases h

theorem readStored_written (ha : aligned sz off = true) (hw : lanesWritten (accessLanes sz off) written = true) :
    readStored sz off value written s = .next (respond (.readOkay (readLanes (accessLanes sz off) value)) s) := by
  simp [readStored, guardAligned_of_aligned ha, hw]

theorem readStored_unwritten (ha : aligned sz off = true) (hw : lanesWritten (accessLanes sz off) written = false) :
    readStored sz off value written s = .fault (.unwrittenRead off sz) := by
  simp [readStored, guardAligned_of_aligned ha, hw]

theorem readDrawn_next (h : readDrawn sz off s = .next t) :
    (∃ r, t = respond r s) ∨ ∃ r, t = respond r { s with drawIndex := s.drawIndex + 4 } := by
  rcases guardAligned_next h with ⟨_, rfl⟩ | ⟨_, h⟩
  · exact .inl ⟨_, rfl⟩
  · cases h; exact .inr ⟨_, rfl⟩

end reads

section writes
variable {sz : Size} {off : Offset} {store : Block → Block} {s t : State}

/-- A write to storage: a bus error, dropped while busy, or performed. -/
theorem writeStored_next (h : writeStored sz off store s = .next t) :
    (aligned sz off = false ∧ t = raiseBusError off (some sz) .misaligned s) ∨
      (aligned sz off = true ∧ busy s.block = true ∧ t = dropWrite s) ∨
      (aligned sz off = true ∧ busy s.block = false ∧ t = respond .writeOkay (onBlock store s)) := by
  rcases guardAligned_next h with ⟨ha, rfl⟩ | ⟨ha, h⟩
  · exact .inl ⟨ha, rfl⟩
  · cases hb : busy s.block with
    | true => simp [hb] at h; exact .inr (.inl ⟨ha, rfl, h.symm⟩)
    | false => simp [hb] at h; exact .inr (.inr ⟨ha, rfl, h.symm⟩)

theorem writeStored_busy (ha : aligned sz off = true) (hb : busy s.block = true) :
    writeStored sz off store s = .next (dropWrite s) := by
  simp [writeStored, guardAligned_of_aligned ha, hb]

theorem writeStored_idle (ha : aligned sz off = true) (hb : busy s.block = false) :
    writeStored sz off store s = .next (respond .writeOkay (onBlock store s)) := by
  simp [writeStored, guardAligned_of_aligned ha, hb]

end writes

section commands
variable {s t : State} {cmd : Option Command}

theorem issueCommand_busy (hb : busy s.block = true) : issueCommand cmd s = .next (dropWrite s) := by
  simp [issueCommand, hb]

theorem issueCommand_illegal (hb : busy s.block = false) :
    issueCommand none s = .next (respond .writeOkay (onBlock setErrCmd s)) := by
  simp [issueCommand, hb]

theorem issueCommand_nop (hb : busy s.block = false) : issueCommand (some .nop) s = .next (respond .writeOkay s) := by
  simp [issueCommand, hb]

theorem issueCommand_run {op : Operation} (hb : busy s.block = false) :
    issueCommand (some (.run op)) s = acceptOperation op s := by
  simp [issueCommand, hb]

/-- A CMD write that goes on: dropped while busy, illegal, a NOP, or an operation accepted with its inputs written. -/
theorem issueCommand_next (h : issueCommand cmd s = .next t) :
    (busy s.block = true ∧ t = dropWrite s) ∨
      (busy s.block = false ∧ cmd = none ∧ t = respond .writeOkay (onBlock setErrCmd s)) ∨
      (busy s.block = false ∧ cmd = some .nop ∧ t = respond .writeOkay s) ∨
      ∃ op, busy s.block = false ∧ cmd = some (.run op) ∧ inputsReady op s.block = true ∧
        t = respond .writeOkay (onBlock (accept op) s) := by
  cases hb : busy s.block with
  | true => rw [issueCommand_busy hb] at h; cases h; exact .inl ⟨rfl, rfl⟩
  | false =>
    match cmd with
    | none => rw [issueCommand_illegal hb] at h; cases h; exact .inr (.inl ⟨rfl, rfl, rfl⟩)
    | some .nop => rw [issueCommand_nop hb] at h; cases h; exact .inr (.inr (.inl ⟨rfl, rfl, rfl⟩))
    | some (.run op) =>
      rw [issueCommand_run hb, acceptOperation] at h
      split at h
      · next hr => cases h; exact .inr (.inr (.inr ⟨op, rfl, rfl, hr, rfl⟩))
      · cases h

end commands

end Sys2Proof.Machine
end

