-- ==== Sys2Proof/Laws/PerInstr.lean ====
section
/-! SUPPORT. A fact about every instruction as syntax, constructor by constructor: what its encoded word carries. -/

namespace Sys2Proof.Laws.EncodedFields

/-- The word of an instruction carries what the instruction is: a bus word has its WR, its size and its offset (R71), the size and the
offset being those of its access; a command word is a word the command decoder accepts (R75). -/
def Statement (i : Instr) : Prop :=
  match encode i with
  | .bus h _ =>
    ∃ sz off, i.access = some (sz, off) ∧ headerSz h = sz.code ∧ headerOff h = off ∧ headerWr h = !i.isRead
  | .cmd c => i.access = none ∧ ∃ cmd, decodeCommand c = some cmd ∧ cmd.instr = i

theorem header_fields : ∀ (wr : Bool) (sz : Size) (off : Offset),
    headerSz (mkHeader wr sz.code off) = sz.code ∧ headerOff (mkHeader wr sz.code off) = off ∧
      headerWr (mkHeader wr sz.code off) = wr := by
  intro wr sz
  cases wr <;> cases sz <;> decide +kernel

theorem rdCmd : Statement .rdCmd := ⟨_, _, rfl, header_fields false _ _⟩

theorem wrCmd (wdata : Word) : Statement (.wrCmd wdata) := ⟨_, _, rfl, header_fields true _ _⟩

theorem rdStatus : Statement .rdStatus := ⟨_, _, rfl, header_fields false _ _⟩

theorem wrStatus (wdata : Word) : Statement (.wrStatus wdata) := ⟨_, _, rfl, header_fields true _ _⟩

theorem rdParam (sz : Size) (o : BitVec 2) : Statement (.rdParam sz o) := ⟨_, _, rfl, header_fields false _ _⟩

theorem rdKey (sz : Size) (o : BitVec 4) : Statement (.rdKey sz o) := ⟨_, _, rfl, header_fields false _ _⟩

theorem wrKey (sz : Size) (o : BitVec 4) (wdata : Word) : Statement (.wrKey sz o wdata) := ⟨_, _, rfl, header_fields true _ _⟩

theorem rdData (sz : Size) (o : BitVec 3) : Statement (.rdData sz o) := ⟨_, _, rfl, header_fields false _ _⟩

theorem wrData (sz : Size) (o : BitVec 3) (wdata : Word) : Statement (.wrData sz o wdata) := ⟨_, _, rfl, header_fields true _ _⟩

theorem rdSLow (sz : Size) (o : BitVec 6) : Statement (.rdSLow sz o) := ⟨_, _, rfl, header_fields false _ _⟩

theorem rdSMid (sz : Size) (o : BitVec 5) : Statement (.rdSMid sz o) := ⟨_, _, rfl, header_fields false _ _⟩

theorem rdSHigh (sz : Size) (o : BitVec 3) : Statement (.rdSHigh sz o) := ⟨_, _, rfl, header_fields false _ _⟩

theorem wrSLow (sz : Size) (o : BitVec 6) (wdata : Word) : Statement (.wrSLow sz o wdata) := ⟨_, _, rfl, header_fields true _ _⟩

theorem wrSMid (sz : Size) (o : BitVec 5) (wdata : Word) : Statement (.wrSMid sz o wdata) := ⟨_, _, rfl, header_fields true _ _⟩

theorem wrSHigh (sz : Size) (o : BitVec 3) (wdata : Word) : Statement (.wrSHigh sz o wdata) := ⟨_, _, rfl, header_fields true _ _⟩

theorem nop : Statement .nop := ⟨rfl, .nop, rfl, rfl⟩

theorem expand : Statement .expand := ⟨rfl, .run .expand, rfl, rfl⟩

theorem encode : Statement .encode := ⟨rfl, .run .encode, rfl, rfl⟩

theorem decode : Statement .decode := ⟨rfl, .run .decode, rfl, rfl⟩

end Sys2Proof.Laws.EncodedFields
end

