-- ==== Sys2Proof/Laws/Step.lean ====
section
/-! SUPPORT. What an instruction and a step can do: one inversion lemma for each, from which the statements about every
instruction and every step follow. -/

namespace Sys2Proof.Machine

theorem exec_nop (s : State) : exec .nop s = issueCommand (some .nop) s := rfl
theorem exec_expand (s : State) : exec .expand s = issueCommand (some (.run .expand)) s := rfl
theorem exec_encode (s : State) : exec .encode s = issueCommand (some (.run .encode)) s := rfl
theorem exec_decode (s : State) : exec .decode s = issueCommand (some (.run .decode)) s := rfl
theorem exec_wrCmd (c : Word) (s : State) : exec (.wrCmd c) s = issueCommand (decodeCommand c) s := rfl

/-- Everything an instruction that goes on can have done (R166): answered and changed nothing of the block; dropped a write while
busy; cleared status bits; stored to KEY, DATA or S; recorded an illegal command; or accepted an operation. -/
inductive Effect (s t : State) : Instr → Prop where
  /-- Only a response: a read, a NOP, or a bus error. -/
  | answered (i : Instr) (r : Response) (h : t = respond r s) : Effect s t i
  /-- A read of free bytes. -/
  | drew (i : Instr) (r : Response) (h : t = respond r { s with drawIndex := s.drawIndex + 4 })
      (hb : busy s.block = true) : Effect s t i
  /-- A write while busy. -/
  | dropped (i : Instr) (hg : i.writesGuarded = true) (hb : busy s.block = true) (h : t = dropWrite s) : Effect s t i
  /-- A STATUS write. -/
  | cleared (v : Word) (h : t = respond .writeOkay (onBlock (clearStatus v) s)) : Effect s t (.wrStatus v)
  /-- A KEY write. -/
  | storedKey (sz : Size) (o : BitVec 4) (wdata : Word) (ha : aligned sz (keyOff o) = true)
      (hb : busy s.block = false)
      (h : t = respond .writeOkay (onBlock (storeKey (keyIndex o) (accessLanes sz (keyOff o)) wdata) s)) :
      Effect s t (.wrKey sz o wdata)
  /-- A DATA write. -/
  | storedData (sz : Size) (o : BitVec 3) (wdata : Word) (ha : aligned sz (dataOff o) = true)
      (hb : busy s.block = false)
      (h : t = respond .writeOkay (onBlock (storeData (dataIndex o) (accessLanes sz (dataOff o)) wdata) s)) :
      Effect s t (.wrData sz o wdata)
  /-- An S write. -/
  | storedTable (i : Instr) (idx : Fin 26) (lanes : Lanes) (wdata : Word) (hg : i.writesGuarded = true)
      (hn : i.operation = none) (hb : busy s.block = false)
      (h : t = respond .writeOkay (onBlock (storeTable idx lanes wdata) s)) : Effect s t i
  /-- An illegal command word. -/
  | illegal (c : Word) (hb : busy s.block = false) (hc : decodeCommand c = none)
      (h : t = respond .writeOkay (onBlock setErrCmd s)) : Effect s t (.wrCmd c)
  /-- An accepted operation. -/
  | accepted (i : Instr) (op : Operation) (hb : busy s.block = false) (hr : inputsReady op s.block = true)
      (hi : i = (Command.run op).instr ∨ ∃ c, i = .wrCmd c ∧ decodeCommand c = some (.run op))
      (h : t = respond .writeOkay (onBlock (accept op) s)) : Effect s t i

theorem readTable_effect {sz : Size} {off : Offset} {idx : Fin 26} {s t : State} (i : Instr)
    (h : readTable sz off idx s = .next t) : Effect s t i := by
  unfold readTable at h
  split at h
  · next hp =>
    rcases readDrawn_next h with ⟨r, h⟩ | ⟨r, h⟩
    · exact .answered i r h
    · exact .drew i r h (by simp [busy, hp])
  · obtain ⟨r, h⟩ := readStored_next h; exact .answered i r h

theorem writeTable_effect {sz : Size} {off : Offset} {idx : Fin 26} {lanes : Lanes} {wdata : Word} {s t : State}
    (i : Instr) (hg : i.writesGuarded = true) (hn : i.operation = none)
    (h : writeStored sz off (storeTable idx lanes wdata) s = .next t) : Effect s t i := by
  rcases writeStored_next h with ⟨_, h⟩ | ⟨_, hb, h⟩ | ⟨_, hb, h⟩
  · exact .answered i _ h
  · exact .dropped i hg hb h
  · exact .storedTable i idx lanes wdata hg hn hb h

/-- Every CMD row is the write of its word to CMD (R70). -/
theorem command_guarded : ∀ cmd : Command, cmd.instr.writesGuarded = true
  | .nop => rfl
  | .run .expand => rfl
  | .run .encode => rfl
  | .run .decode => rfl

theorem command_effect {cmd : Command} {s t : State} (h : issueCommand (some cmd) s = .next t) :
    Effect s t cmd.instr := by
  rcases issueCommand_next h with ⟨hb, ht⟩ | ⟨_, hc, _⟩ | ⟨hb, hc, ht⟩ | ⟨op, hb, hc, hr, ht⟩
  · exact .dropped _ (command_guarded cmd) hb ht
  · cases hc
  · cases hc; exact .answered _ _ ht
  · cases hc; exact .accepted _ op hb hr (.inl rfl) ht

/-- The inversion lemma of `exec`. -/
theorem exec_effect {i : Instr} {s t : State} (h : exec i s = .next t) : Effect s t i := by
  cases i with
  | rdCmd =>
    simp only [exec, execRdCmd] at h
    obtain ⟨r, h⟩ := readConstant_next h; exact .answered _ r h
  | rdStatus =>
    simp only [exec, execRdStatus] at h
    obtain ⟨r, h⟩ := readConstant_next h; exact .answered _ r h
  | rdParam sz o => obtain ⟨r, h⟩ := readConstant_next h; exact .answered _ r h
  | rdKey sz o => obtain ⟨r, h⟩ := readStored_next h; exact .answered _ r h
  | rdData sz o =>
    simp only [exec, execRdData] at h
    split at h
    · next hp =>
      rcases readDrawn_next h with ⟨r, h⟩ | ⟨r, h⟩
      · exact .answered _ r h
      · exact .drew _ r h (by rcases hp with hp | hp <;> simp [busy, hp])
    · obtain ⟨r, h⟩ := readStored_next h; exact .answered _ r h
  | rdSLow sz o => exact readTable_effect _ h
  | rdSMid sz o => exact readTable_effect _ h
  | rdSHigh sz o => exact readTable_effect _ h
  | wrCmd c =>
    rcases issueCommand_next h with ⟨hb, h⟩ | ⟨hb, hc, h⟩ | ⟨hb, hc, h⟩ | ⟨op, hb, hc, hr, h⟩
    · exact .dropped _ rfl hb h
    · exact .illegal c hb hc h
    · exact .answered _ _ h
    · exact .accepted _ op hb hr (.inr ⟨c, rfl, hc⟩) h
  | wrStatus v => simp only [exec, execWrStatus, Host.Outcome.next.injEq] at h; exact .cleared v h.symm
  | wrKey sz o wdata =>
    rcases writeStored_next h with ⟨_, h⟩ | ⟨_, hb, h⟩ | ⟨ha, hb, h⟩
    · exact .answered _ _ h
    · exact .dropped _ rfl hb h
    · exact .storedKey sz o wdata ha hb h
  | wrData sz o wdata =>
    rcases writeStored_next h with ⟨_, h⟩ | ⟨_, hb, h⟩ | ⟨ha, hb, h⟩
    · exact .answered _ _ h
    · exact .dropped _ rfl hb h
    · exact .storedData sz o wdata ha hb h
  | wrSLow sz o wdata => exact writeTable_effect _ rfl rfl h
  | wrSMid sz o wdata => exact writeTable_effect _ rfl rfl h
  | wrSHigh sz o wdata => exact writeTable_effect _ rfl rfl h
  | nop => exact command_effect (cmd := .nop) h
  | expand => exact command_effect (cmd := .run .expand) h
  | encode => exact command_effect (cmd := .run .encode) h
  | decode => exact command_effect (cmd := .run .decode) h

/-- Everything a step that goes on can have done: the engine's turn, the reset input, an instruction, or a bus error. -/
theorem step_next_cases {s t : State} (h : step s = .next t) :
    (s.inputs = [] ∧ t = engineTurn s) ∨
      (∃ rest, s.inputs = .engine :: rest ∧ t = engineTurn { s with inputs := rest }) ∨
      (∃ rest, s.inputs = .reset :: rest ∧ t = resetTurn { s with inputs := rest }) ∨
      (∃ hd wdata rest i, s.inputs = .bus hd wdata :: rest ∧ decodeBus hd wdata = .ok i ∧
        exec i { s with inputs := rest } = .next t) ∨
      ∃ hd wdata rest kind, s.inputs = .bus hd wdata :: rest ∧ decodeBus hd wdata = .error kind ∧
        t = raiseBusError (headerOff hd) (Size.ofCode (headerSz hd)) kind { s with inputs := rest } := by
  unfold step at h
  split at h
  · next he => cases h; exact .inl ⟨he, rfl⟩
  · next rest he => cases h; exact .inr (.inl ⟨rest, he, rfl⟩)
  · next rest he => cases h; exact .inr (.inr (.inl ⟨rest, he, rfl⟩))
  · next hd wdata rest he =>
    split at h
    · next i hi => exact .inr (.inr (.inr (.inl ⟨hd, wdata, rest, i, he, hi, h⟩)))
    · next kind hk => cases h; exact .inr (.inr (.inr (.inr ⟨hd, wdata, rest, kind, he, hk, rfl⟩)))

theorem step_nil {s : State} (h : s.inputs = []) : step s = .next (engineTurn s) := by simp [step, h]

theorem step_engine {s : State} {rest : List Input} (h : s.inputs = .engine :: rest) :
    step s = .next (engineTurn { s with inputs := rest }) := by simp [step, h]

theorem step_reset {s : State} {rest : List Input} (h : s.inputs = .reset :: rest) :
    step s = .next (resetTurn { s with inputs := rest }) := by simp [step, h]

end Sys2Proof.Machine
end

