-- ==== Sys2Proof/Laws/Storage.lean ====
section
/-! SUPPORT. The byte at an offset, register by register, and what "all written" means in the marks. -/

namespace Sys2Proof.Machine

@[simp] theorem toNat_paramOff (o : BitVec 2) : (paramOff o).toNat = 0x08 + o.toNat := by revert o; decide
@[simp] theorem toNat_keyOff (o : BitVec 4) : (keyOff o).toNat = 0x10 + o.toNat := by revert o; decide
@[simp] theorem toNat_dataOff (o : BitVec 3) : (dataOff o).toNat = 0x20 + o.toNat := by revert o; decide
@[simp] theorem toNat_sLowOff (o : BitVec 6) : (sLowOff o).toNat = 0x40 + o.toNat := by revert o; decide
@[simp] theorem toNat_sMidOff (o : BitVec 5) : (sMidOff o).toNat = 0x80 + o.toNat := by revert o; decide
@[simp] theorem toNat_sHighOff (o : BitVec 3) : (sHighOff o).toNat = 0xA0 + o.toNat := by revert o; decide

/-- A register's byte, where its lane is marked. -/
def laneByte (value : Word) (written : Lanes) (lane : Nat) : Option Byte :=
  if written.getLsbD lane then some (byteLane value lane) else none

section
variable (blk : Block) (x : Offset)

theorem storedByte_key (n : Nat) (hn : n < 4) (h : 0x10 ≤ x.toNat) (e : (x.toNat - 0x10) / 4 = n) :
    storedByte blk x = laneByte blk.key[n] blk.keyWritten[n] (laneOf x) := by
  subst e
  simp [storedByte, laneByte, show ¬ x.toNat < 0x10 by omega, show x.toNat < 0x20 by omega, hn]

theorem storedByte_data (n : Nat) (hn : n < 2) (h : 0x20 ≤ x.toNat) (e : (x.toNat - 0x20) / 4 = n) :
    storedByte blk x = laneByte blk.data[n] blk.dataWritten[n] (laneOf x) := by
  subst e
  simp [storedByte, laneByte, show ¬ x.toNat < 0x10 by omega, show ¬ x.toNat < 0x20 by omega,
    show x.toNat < 0x28 by omega, hn]

theorem storedByte_table (n : Nat) (hn : n < 26) (h : 0x40 ≤ x.toNat) (e : (x.toNat - 0x40) / 4 = n) :
    storedByte blk x = laneByte blk.s[n] blk.sWritten[n] (laneOf x) := by
  subst e
  simp [storedByte, laneByte, show ¬ x.toNat < 0x10 by omega, show ¬ x.toNat < 0x20 by omega,
    show ¬ x.toNat < 0x28 by omega, show ¬ x.toNat < 0x40 by omega, hn]

/-- Outside KEY, DATA and S no byte is stored. -/
theorem storedByte_none
    (h : x.toNat < 0x10 ∨ (0x28 ≤ x.toNat ∧ x.toNat < 0x40) ∨ 0xA8 ≤ x.toNat) : storedByte blk x = none := by
  rcases h with h | ⟨h, h'⟩ | h
  · simp [storedByte, h]
  · simp [storedByte, show ¬ x.toNat < 0x10 by omega, show ¬ x.toNat < 0x20 by omega,
      show ¬ x.toNat < 0x28 by omega, h']
  · have : ¬ (x.toNat - 0x40) / 4 < 26 := by omega
    simp [storedByte, show ¬ x.toNat < 0x10 by omega, show ¬ x.toNat < 0x20 by omega,
      show ¬ x.toNat < 0x28 by omega, show ¬ x.toNat < 0x40 by omega, this]

/-- The stored bytes depend on the storage and its marks only. -/
theorem storedByte_congr {x y : Block} (z : Offset) (hk : x.key = y.key) (hkw : x.keyWritten = y.keyWritten)
    (hd : x.data = y.data) (hdw : x.dataWritten = y.dataWritten) (hs : x.s = y.s)
    (hsw : x.sWritten = y.sWritten) : storedByte x z = storedByte y z := by
  simp only [storedByte, hk, hkw, hd, hdw, hs, hsw]

end

/-- A byte outside KEY does not depend on KEY. -/
theorem storedByte_outside_key {x y : Block} {z : Offset} (h : ¬ (0x10 ≤ z.toNat ∧ z.toNat < 0x20)) (hd : x.data = y.data)
    (hdw : x.dataWritten = y.dataWritten) (hs : x.s = y.s) (hsw : x.sWritten = y.sWritten) :
    storedByte x z = storedByte y z := by
  simp only [storedByte, hd, hdw, hs, hsw]
  by_cases h0 : z.toNat < 0x10
  · simp only [h0, if_true]
  · simp only [h0, show ¬ z.toNat < 0x20 by omega, if_false]

/-- A byte outside DATA does not depend on DATA. -/
theorem storedByte_outside_data {x y : Block} {z : Offset} (h : ¬ (0x20 ≤ z.toNat ∧ z.toNat < 0x28)) (hk : x.key = y.key)
    (hkw : x.keyWritten = y.keyWritten) (hs : x.s = y.s) (hsw : x.sWritten = y.sWritten) :
    storedByte x z = storedByte y z := by
  simp only [storedByte, hk, hkw, hs, hsw]
  by_cases h0 : z.toNat < 0x20
  · simp only [h0, if_true]
  · simp only [h0, show ¬ z.toNat < 0x28 by omega, if_false]

/-- A byte outside S does not depend on S. -/
theorem storedByte_outside_table {x y : Block} {z : Offset} (h : ¬ 0x40 ≤ z.toNat) (hk : x.key = y.key)
    (hkw : x.keyWritten = y.keyWritten) (hd : x.data = y.data) (hdw : x.dataWritten = y.dataWritten) :
    storedByte x z = storedByte y z := by
  simp only [storedByte, hk, hkw, hd, hdw, show z.toNat < 0x40 by omega, if_true]

/-- The bytes of a register after a store to some of its lanes. -/
theorem laneByte_store (lanes written : Lanes) (new old : Word) {k : Nat} (hk : k < 4) :
    laneByte (mergeLanes lanes new old) (written ||| lanes) k =
      if lanes.getLsbD k then some (byteLane new k) else laneByte old written k := by
  simp only [laneByte, BitVec.getLsbD_or, byteLane_mergeLanes _ _ _ _ hk]
  cases h : lanes.getLsbD k <;> simp

/-- The offsets an aligned access covers lie in its own register, on the lanes from its lowest. -/
theorem covers_register {sz : Size} {off x : Offset} (ha : aligned sz off = true) (hx : Covers sz off x) :
    x.toNat / 4 = off.toNat / 4 ∧ laneOf x = laneOf off + (x.toNat - off.toNat) := by
  have := lane_add_bytes_le ha
  obtain ⟨h1, h2⟩ := hx
  unfold laneOf at *
  omega

/-- An offset of a register is covered exactly when its lane is one of the access's lanes. -/
theorem covers_iff_lane {sz : Size} {off x : Offset} (ha : aligned sz off = true) (h : x.toNat / 4 = off.toNat / 4) :
    Covers sz off x ↔ (accessLanes sz off).getLsbD (laneOf x) = true := by
  have := lane_add_bytes_le ha
  rw [getLsbD_accessLanes _ _ (laneOf_lt x), decide_eq_true_iff]
  unfold Covers laneOf at *
  omega

theorem laneByte_isSome {value : Word} {written : Lanes} {lane : Nat} :
    (laneByte value written lane).isSome = written.getLsbD lane := by
  unfold laneByte; cases written.getLsbD lane <;> rfl

@[simp] theorem laneByte_allLanes (value : Word) {lane : Nat} (h : lane < 4) :
    laneByte value allLanes lane = some (byteLane value lane) := by
  have : (allLanes).getLsbD lane = true := by
    match lane, h with
    | 0, _ => rfl
    | 1, _ => rfl
    | 2, _ => rfl
    | 3, _ => rfl
  simp [laneByte, this]

theorem eq_allLanes_iff {written : Lanes} : written = allLanes ↔ ∀ k < 4, written.getLsbD k = true := by
  revert written; decide

theorem toList_all_iff {α : Type} {n : Nat} (v : Vector α n) (p : α → Bool) :
    v.toList.all p = true ↔ ∀ (i : Nat) (h : i < n), p v[i] = true := by
  simp

/-- KEY is all written when its sixteen bytes are. -/
theorem keyReady_iff (blk : Block) : keyReady blk = true ↔ AllWritten blk 0x10 0x20 := by
  simp only [keyReady, toList_all_iff, beq_iff_eq, eq_allLanes_iff]
  constructor
  · intro h x h1 h2
    rw [storedByte_key blk x _ (by omega) h1 rfl, laneByte_isSome]
    exact h _ (by omega) _ (laneOf_lt x)
  · intro h i hi k hk
    have hx : (BitVec.ofNat 8 (0x10 + 4 * i + k)).toNat = 0x10 + 4 * i + k := by simp; omega
    have := h (BitVec.ofNat 8 (0x10 + 4 * i + k)) (by omega) (by omega)
    rw [storedByte_key blk _ i hi (by omega) (by omega), laneByte_isSome] at this
    rwa [show laneOf (BitVec.ofNat 8 (0x10 + 4 * i + k)) = k by unfold laneOf; omega] at this

/-- DATA is all written when its eight bytes are. -/
theorem dataReady_iff (blk : Block) : dataReady blk = true ↔ AllWritten blk 0x20 0x28 := by
  simp only [dataReady, toList_all_iff, beq_iff_eq, eq_allLanes_iff]
  constructor
  · intro h x h1 h2
    rw [storedByte_data blk x _ (by omega) h1 rfl, laneByte_isSome]
    exact h _ (by omega) _ (laneOf_lt x)
  · intro h i hi k hk
    have hx : (BitVec.ofNat 8 (0x20 + 4 * i + k)).toNat = 0x20 + 4 * i + k := by simp; omega
    have := h (BitVec.ofNat 8 (0x20 + 4 * i + k)) (by omega) (by omega)
    rw [storedByte_data blk _ i hi (by omega) (by omega), laneByte_isSome] at this
    rwa [show laneOf (BitVec.ofNat 8 (0x20 + 4 * i + k)) = k by unfold laneOf; omega] at this

/-- S is all written when its 104 bytes are. -/
theorem tableReady_iff (blk : Block) : tableReady blk = true ↔ AllWritten blk 0x40 0xA8 := by
  simp only [tableReady, toList_all_iff, beq_iff_eq, eq_allLanes_iff]
  constructor
  · intro h x h1 h2
    rw [storedByte_table blk x _ (by omega) h1 rfl, laneByte_isSome]
    exact h _ (by omega) _ (laneOf_lt x)
  · intro h i hi k hk
    have hx : (BitVec.ofNat 8 (0x40 + 4 * i + k)).toNat = 0x40 + 4 * i + k := by simp; omega
    have := h (BitVec.ofNat 8 (0x40 + 4 * i + k)) (by omega) (by omega)
    rw [storedByte_table blk _ i hi (by omega) (by omega), laneByte_isSome] at this
    rwa [show laneOf (BitVec.ofNat 8 (0x40 + 4 * i + k)) = k by unfold laneOf; omega] at this

end Sys2Proof.Machine
end

