-- ==== Sys2Proof/Laws/Run.lean ====
section
/-! SUPPORT. What an instruction and a step leave of the block alone, acceptance, and runs of the engine. -/

namespace Sys2Proof.Machine

theorem inputsReady_expand_iff (blk : Block) : inputsReady .expand blk = true ↔ AllWritten blk 0x10 0x20 := keyReady_iff blk

theorem inputsReady_encode_iff (blk : Block) :
    inputsReady .encode blk = true ↔ AllWritten blk 0x20 0x28 ∧ AllWritten blk 0x40 0xA8 := by
  simp [inputsReady, dataReady_iff, tableReady_iff]

theorem inputsReady_decode_iff (blk : Block) :
    inputsReady .decode blk = true ↔ AllWritten blk 0x20 0x28 ∧ AllWritten blk 0x40 0xA8 := by
  simp [inputsReady, dataReady_iff, tableReady_iff]

theorem acceptOperation_ready {op : Operation} {s : State} (h : inputsReady op s.block = true) :
    acceptOperation op s = .next (respond .writeOkay (onBlock (accept op) s)) := by
  simp [acceptOperation, h]

theorem acceptOperation_not_ready {op : Operation} {s : State} (h : inputsReady op s.block = false) :
    acceptOperation op s = .fault (.unwrittenInput op) := by
  simp [acceptOperation, h]

/-- Everything an instruction that goes on can leave of the block: as it was; a status bit set or cleared; a store, not busy; or an
accepted operation, not busy. -/
theorem exec_block_cases {i : Instr} {s t : State} (h : exec i s = .next t) :
    t.block = s.block ∨ t.block = setErrBusy s.block ∨ t.block = setErrCmd s.block ∨
      (∃ v, t.block = clearStatus v s.block) ∨
      (busy s.block = false ∧
        ((∃ idx lanes w, t.block = storeKey idx lanes w s.block) ∨
          (∃ idx lanes w, t.block = storeData idx lanes w s.block) ∨
          ∃ idx lanes w, t.block = storeTable idx lanes w s.block)) ∨
      (busy s.block = false ∧ ∃ op, inputsReady op s.block = true ∧ t.block = accept op s.block) := by
  cases exec_effect h with
  | answered _ r e => subst e; exact .inl rfl
  | drew _ r e hb => subst e; exact .inl rfl
  | dropped _ hg hb e => subst e; exact .inr (.inl rfl)
  | illegal c hb hc e => subst e; exact .inr (.inr (.inl rfl))
  | cleared v e => subst e; exact .inr (.inr (.inr (.inl ⟨v, rfl⟩)))
  | storedKey _ _ _ _ hb e => subst e; exact .inr (.inr (.inr (.inr (.inl ⟨hb, .inl ⟨_, _, _, rfl⟩⟩))))
  | storedData _ _ _ _ hb e =>
    subst e; exact .inr (.inr (.inr (.inr (.inl ⟨hb, .inr (.inl ⟨_, _, _, rfl⟩)⟩))))
  | storedTable _ _ _ _ _ _ hb e =>
    subst e; exact .inr (.inr (.inr (.inr (.inl ⟨hb, .inr (.inr ⟨_, _, _, rfl⟩)⟩))))
  | accepted _ op hb hr hi e => subst e; exact .inr (.inr (.inr (.inr (.inr ⟨hb, op, hr, rfl⟩))))

/-- Everything a step that goes on can leave of the block: an engine micro-step; the reset block; what an instruction leaves; or as it
was, after a bus error. -/
theorem step_block_cases {s t : State} (h : step s = .next t) :
    t.block = engineStep s.block ∨ ((∃ rest, s.inputs = .reset :: rest) ∧ t.block = Block.reset) ∨
      (∃ i s', s'.block = s.block ∧ exec i s' = .next t) ∨ t.block = s.block := by
  rcases step_next_cases h with ⟨_, rfl⟩ | ⟨rest, _, rfl⟩ | ⟨rest, he, rfl⟩ | ⟨hd, wd, rest, i, _, _, h⟩ |
    ⟨hd, wd, rest, kind, _, _, rfl⟩
  · exact .inl rfl
  · exact .inl rfl
  · exact .inr (.inl ⟨⟨rest, he⟩, rfl⟩)
  · exact .inr (.inr (.inl ⟨i, { s with inputs := rest }, rfl, h⟩))
  · exact .inr (.inr (.inr rfl))

/-- `n` engine micro-steps. -/
def engineSteps (blk : Block) : Nat → Block
  | 0 => blk
  | n + 1 => engineSteps (engineStep blk) n

/-- With no input left, a run is the engine's. -/
theorem runsTo_engineSteps (s : State) (h : s.inputs = []) (n : Nat) :
    runsTo n s { s with block := engineSteps s.block n } := by
  induction n generalizing s with
  | zero => rfl
  | succ n ih =>
    have e : Sys2Proof.core.step s = .next (engineTurn s) := step_nil h
    have := ih (engineTurn s) h
    simp only [runsTo, Host.Core.run] at *
    rw [e]
    exact this

end Sys2Proof.Machine
end

