-- ==== Sys2Proof/Laws/View.lean ====
section
/-! SUPPORT. What a host can see of a block: the written parts of its registers under reads and stores. -/

namespace Sys2Proof.Machine

theorem getElem_writtenPart {n : Nat} (written : Vector Lanes n) (values : Vector Word n) (i : Nat) (h : i < n) :
    (writtenPart written values)[i] = readLanes written[i] values[i] := by
  simp [writtenPart]

/-- A read of written lanes sees the written part only. -/
theorem readLanes_of_written {lanes written : Lanes} (value : Word) (h : lanesWritten lanes written = true) :
    readLanes lanes value = readLanes lanes (readLanes written value) := by
  rw [lanesWritten_iff] at h
  apply word_ext_lanes
  intro k hk
  rw [byteLane_readLanes _ _ _ hk, byteLane_readLanes _ _ _ hk, byteLane_readLanes _ _ _ hk]
  split
  · next hl => rw [if_pos (h k hk hl)]
  · rfl

/-- A store changes the written part as it would change the register. -/
theorem writtenPart_set {n : Nat} (written : Vector Lanes n) (values : Vector Word n) (i : Nat) (h : i < n)
    (lanes : Lanes) (new : Word) :
    writtenPart (written.set i (written[i] ||| lanes)) (values.set i (mergeLanes lanes new values[i])) =
      (writtenPart written values).set i (mergeLanes lanes new (writtenPart written values)[i]) := by
  apply Vector.ext
  intro k hk
  rw [getElem_writtenPart, getElem_writtenPart]
  by_cases e : i = k
  · subst e
    simp only [Vector.getElem_set_self]
    apply word_ext_lanes
    intro k hk
    rw [byteLane_readLanes _ _ _ hk, byteLane_mergeLanes _ _ _ _ hk, byteLane_mergeLanes _ _ _ _ hk,
      byteLane_readLanes _ _ _ hk, BitVec.getLsbD_or]
    cases written[i].getLsbD k <;> cases lanes.getLsbD k <;> rfl
  · rw [Vector.getElem_set_ne _ _ e, Vector.getElem_set_ne _ _ e, Vector.getElem_set_ne _ _ e, getElem_writtenPart]

/-- Of registers written whole, the written part is all of them. -/
theorem writtenPart_all {n : Nat} (written : Vector Lanes n) (values : Vector Word n)
    (h : written.toList.all (· == allLanes) = true) : writtenPart written values = values := by
  rw [toList_all_iff] at h
  apply Vector.ext
  intro k hk
  rw [getElem_writtenPart, eq_of_beq (h k hk)]
  apply word_ext_lanes
  intro k hk
  rw [byteLane_readLanes _ _ _ hk, if_pos (eq_allLanes_iff.1 rfl k hk)]

end Sys2Proof.Machine
end

