-- ==== Sys2Proof/Tests/Slice0.lean ====
section
/-! SUPPORT. Tests. Expected values come from spec/95_test_vectors.md (V1 to V15, section 4, P5), from the tables of 30_encoding.md, or
from the rule a test names. After them, for each statement with hypotheses, a witness that meets them all, each clause at a boundary of its
range. -/

namespace Sys2Proof.Tests

open Sys2Proof.Machine

/-! ### Helpers -/

/-- The outcome is a next state that `p` holds of. -/
def nextWith (o : Host.Outcome State Fault Refusal) (p : State → Bool) : Bool :=
  match o with
  | .next s => p s
  | .fault _ => false
  | .refused _ => false

/-- The outcome is a fault that `p` holds of. -/
def faultWith (o : Host.Outcome State Fault Refusal) (p : Fault → Bool) : Bool :=
  match o with
  | .next _ => false
  | .fault f => p f
  | .refused _ => false

/-- A transaction as the next thing on the bus. -/
def onBus (h : Header) (wdata : Word) (s : State) : State := { s with inputs := .bus h wdata :: s.inputs }

/-- The key `00 01 .. 0F` (V1). -/
def keyV1 : Vector Word 4 := #v[0x03020100#32, 0x07060504#32, 0x0B0A0908#32, 0x0F0E0D0C#32]

/-- The Key Table of that key (V1, the table). -/
def tableV1 : Vector Word 26 :=
  #v[0xd447e233#32, 0xd82eec20#32, 0x84fce219#32, 0xb93353de#32, 0x5ac2588f#32, 0x48e922f1#32, 0x879f5460#32,
    0x1a693a4b#32, 0x5171b55f#32, 0x9a206e4d#32, 0x9966c4a0#32, 0xb166b0d7#32, 0x89cc6827#32, 0xcbe1b9b7#32,
    0x1bb7f44f#32, 0x638829b4#32, 0x4da0ab3a#32, 0x74e54561#32, 0x5eb4dee9#32, 0xbef10188#32, 0x728a511f#32,
    0x37a8debc#32, 0x5735676a#32, 0xf96b764a#32, 0x7aec5407#32, 0x15e8e206#32]

/-- A block with every byte of its storage written: V12's KEY and DATA, V1's S. -/
def fullBlock : Block :=
  { Block.reset with
    key := keyV1, keyWritten := #v[0xF, 0xF, 0xF, 0xF], data := #v[0x33221100#32, 0x77665544#32], dataWritten := #v[0xF, 0xF]
    s := tableV1, sWritten := Vector.replicate 26 0xF#4 }

/-- The idle machine with that block. -/
def full : State := { State.reset with block := fullBlock }

/-- The same machine in another phase. -/
def running (p : Phase) : State := { full with block := { fullBlock with phase := p } }

/-- The same machine idle with the STATUS bits DONE, ERR_CMD and ERR_BUSY. -/
def withStatus (d c b : Bool) : State := { full with block := { fullBlock with done := d, errCmd := c, errBusy := b } }

/-! ### Well-formedness: an ill-formed term of every row whose encoding can be misaligned (R55, R77 step 3) -/

theorem test_wellFormed_refuses_rdParam : Instr.wellFormed (.rdParam .word 2#2) = false := by decide
theorem test_wellFormed_refuses_rdKey : Instr.wellFormed (.rdKey .half 1#4) = false := by decide
theorem test_wellFormed_refuses_wrKey : Instr.wellFormed (.wrKey .word 3#4 0#32) = false := by decide
theorem test_wellFormed_refuses_rdData : Instr.wellFormed (.rdData .word 6#3) = false := by decide
theorem test_wellFormed_refuses_wrData : Instr.wellFormed (.wrData .half 5#3 0#32) = false := by decide
theorem test_wellFormed_refuses_rdS :
    Instr.wellFormed (.rdSLow .half 0x3F#6) = false ∧ Instr.wellFormed (.rdSMid .word 1#5) = false ∧
      Instr.wellFormed (.rdSHigh .word 5#3) = false := by decide
theorem test_wellFormed_refuses_wrS :
    Instr.wellFormed (.wrSLow .half 1#6 0#32) = false ∧ Instr.wellFormed (.wrSMid .word 2#5 0#32) = false ∧
      Instr.wellFormed (.wrSHigh .half 7#3 0#32) = false := by decide
theorem test_wellFormed_accepts :
    Instr.wellFormed (.rdSHigh .word 4#3) = true ∧ Instr.wellFormed (.wrKey .byte 15#4 0#32) = true ∧
      Instr.wellFormed .expand = true := by decide

/-! ### Decoding: words written out from the tables of R75 and R77 and from the H columns of 95_test_vectors.md -/

/-- 0x200 and 0x600: WR 0 or 1, SZ 10, OFF 0x00. -/
theorem test_decode_cmd : decodeBus 0b0_10_00000000#11 7#32 = .ok .rdCmd ∧ decodeBus 0b1_10_00000000#11 7#32 = .ok (.wrCmd 7#32) := by decide
/-- 0x204 and 0x604. -/
theorem test_decode_status :
    decodeBus 0b0_10_00000100#11 0#32 = .ok .rdStatus ∧ decodeBus 0b1_10_00000100#11 0xE#32 = .ok (.wrStatus 0xE#32) := by decide
/-- V12: 0x208, 0x009, 0x10A. -/
theorem test_decode_param :
    decodeBus 0b0_10_00001000#11 0#32 = .ok (.rdParam .word 0#2) ∧ decodeBus 0b0_00_00001001#11 0#32 = .ok (.rdParam .byte 1#2) ∧
      decodeBus 0b0_01_00001010#11 0#32 = .ok (.rdParam .half 2#2) := by decide
/-- V12: 0x013, 0x116; P5: 0x61C, 0x41E. -/
theorem test_decode_key :
    decodeBus 0b0_00_00010011#11 0#32 = .ok (.rdKey .byte 3#4) ∧ decodeBus 0b0_01_00010110#11 0#32 = .ok (.rdKey .half 6#4) ∧
      decodeBus 0b1_10_00011100#11 5#32 = .ok (.wrKey .word 12#4 5#32) ∧
      decodeBus 0b1_00_00011110#11 5#32 = .ok (.wrKey .byte 14#4 5#32) := by decide
/-- V12: 0x224, 0x421, 0x526. -/
theorem test_decode_data :
    decodeBus 0b0_10_00100100#11 0#32 = .ok (.rdData .word 4#3) ∧ decodeBus 0b1_00_00100001#11 5#32 = .ok (.wrData .byte 1#3 5#32) ∧
      decodeBus 0b1_01_00100110#11 5#32 = .ok (.wrData .half 6#3 5#32) := by decide
/-- The first and last offsets of the three rows: 0x40, 0x7F, 0x80, 0x9F, 0xA0, 0xA7. -/
theorem test_decode_rdS :
    decodeBus 0b0_10_01000000#11 0#32 = .ok (.rdSLow .word 0#6) ∧ decodeBus 0b0_00_01111111#11 0#32 = .ok (.rdSLow .byte 0x3F#6) ∧
      decodeBus 0b0_10_10000000#11 0#32 = .ok (.rdSMid .word 0#5) ∧ decodeBus 0b0_00_10011111#11 0#32 = .ok (.rdSMid .byte 0x1F#5) ∧
      decodeBus 0b0_10_10100000#11 0#32 = .ok (.rdSHigh .word 0#3) ∧
      decodeBus 0b0_00_10100111#11 0#32 = .ok (.rdSHigh .byte 7#3) := by decide
theorem test_decode_wrS :
    decodeBus 0b1_10_01000000#11 9#32 = .ok (.wrSLow .word 0#6 9#32) ∧
      decodeBus 0b1_01_01111110#11 9#32 = .ok (.wrSLow .half 0x3E#6 9#32) ∧
      decodeBus 0b1_10_10000000#11 9#32 = .ok (.wrSMid .word 0#5 9#32) ∧
      decodeBus 0b1_10_10100100#11 9#32 = .ok (.wrSHigh .word 4#3 9#32) := by decide
/-- R75: the four command words, and the reserved ones of V14. -/
theorem test_decode_commands :
    decode (.cmd 0#32) = .ok .nop ∧ decode (.cmd 1#32) = .ok .expand ∧ decode (.cmd 2#32) = .ok .encode ∧
      decode (.cmd 3#32) = .ok .decode ∧ decode (.cmd 4#32) = .error .illegalCommand ∧
      decode (.cmd 0x11#32) = .error .illegalCommand ∧ decode (.cmd 0x80000001#32) = .error .illegalCommand := by decide
/-- V13, the whole table. -/
theorem test_decode_bus_errors :
    decodeBus 0x710#11 0#32 = .error .rsvdSize ∧ decodeBus 0x330#11 0#32 = .error .rsvdSize ∧
      decodeBus 0x20C#11 0#32 = .error .unmapped ∧ decodeBus 0x230#11 0#32 = .error .unmapped ∧
      decodeBus 0x6A8#11 0#32 = .error .unmapped ∧ decodeBus 0x0FF#11 0#32 = .error .unmapped ∧
      decodeBus 0x104#11 0#32 = .error .badSize ∧ decodeBus 0x400#11 1#32 = .error .badSize ∧
      decodeBus 0x002#11 0#32 = .error .badSize ∧ decodeBus 0x608#11 0#32 = .error .roWrite ∧
      decodeBus 0x40B#11 0#32 = .error .roWrite ∧ decodeBus 0x212#11 0#32 = .error .misaligned ∧
      decodeBus 0x541#11 0#32 = .error .misaligned ∧ decodeBus 0x20A#11 0#32 = .error .misaligned := by decide

/-! ### Words: section 4 and V11 -/

theorem test_rotations :
    rotl32 0x80000001#32 1 = 0x00000003#32 ∧ rotl32 0x80000001#32 32 = 0x80000001#32 ∧ rotl32 0x80000001#32 33 = 0x00000003#32 ∧
      rotl32 0x12345678#32 0 = 0x12345678#32 ∧ rotl32 0x12345678#32 31 = 0x091a2b3c#32 ∧
      rotl32 0x12345678#32 (low5 0xFFFFFFE4#32) = 0x23456781#32 ∧ rotr32 0x12345678#32 4 = 0x81234567#32 ∧
      rotr32 0x12345678#32 36 = 0x81234567#32 ∧ rotr32 0x80000000#32 31 = 0x00000001#32 := by decide
theorem test_packing :
    bytesToWords [0x00#8, 0x11#8, 0x22#8, 0x33#8, 0x44#8, 0x55#8, 0x66#8, 0x77#8] = [0x33221100#32, 0x77665544#32] ∧
      bytesToWordsByReverseScan [0x2B#8, 0xD6#8, 0x45#8, 0x9F#8] = [0x9f45d62b#32] ∧
      wordsToBytes [0x863be411#32, 0x64ea31d2#32] = [0x11#8, 0xE4#8, 0x3B#8, 0x86#8, 0xD2#8, 0x31#8, 0xEA#8, 0x64#8] := by decide

/-! ### The function layer: V1, V2, V4, V3, V7, V8 -/

theorem test_expand_V1 : expandKey keyV1 = tableV1 := by decide +kernel
/-- V1, the mixing trace: steps 0, 4 and 52. -/
theorem test_mixing_V1 :
    let x (n : Nat) := mixSteps (mixStart (initTable (Vector.replicate 26 0#32)) keyV1) n
    (x 1).a = 0xbf0a8b1d#32 ∧ (x 1).b = 0xb8419183#32 ∧ (x 5).a = 0x8a21562c#32 ∧ (x 5).b = 0xf579a089#32 ∧
      (x 53).a = 0xd447e233#32 ∧ (x 53).b = 0xe099f33c#32 := by decide +kernel
/-- V2: the whitening, rounds 1 and 12; V4: DECODE's round 12 and the result. -/
theorem test_cipher_V2_V4 :
    let p : Word × Word := (0x33221100#32, 0x77665544#32)
    let c : Word × Word := (0x9b14dc2d#32, 0x9e8b08cf#32)
    encodeAfter tableV1 p 0 = (0x0769f333#32, 0x4f954164#32) ∧ encodeAfter tableV1 p 1 = (0x14c8078d#32, 0x62107f49#32) ∧
      encodeBlock tableV1 p = c ∧ decodeAfter tableV1 c 1 = (0xafd01b5e#32, 0xad58993c#32) ∧ decodeBlock tableV1 c = p := by
  decide +kernel
/-- V3: the second fixed vector, from its key. -/
theorem test_cipher_V3 :
    encodeBlock (expandKey #v[0x9f45d62b#32, 0x00b3c582#32, 0x10492c95#32, 0x48ff8148#32]) (0x144702ea#32, 0x844d5cad#32) =
      (0x863be411#32, 0x64ea31d2#32) := by decide +kernel
/-- V7 and V8: tables no EXPAND gives. -/
theorem test_cipher_V7_V8 :
    encodeBlock (Vector.replicate 26 0#32) (1#32, 0#32) = (0x200c202c#32, 0xce0ece20#32) ∧
      decodeBlock (Vector.replicate 26 0#32) (1#32, 0#32) = (0xd0d00001#32, 0x01000001#32) ∧
      encodeBlock (Vector.replicate 26 0xFFFFFFFF#32) (0xFFFFFFFF#32, 0xFFFFFFFF#32) = (0x000003ff#32, 0x000001ff#32) ∧
      decodeBlock (Vector.replicate 26 0xFFFFFFFF#32) (0xFFFFFFFF#32, 0xFFFFFFFF#32) = (0#32, 0#32) := by decide +kernel

/-! ### One step each: V12 (reads and byte lanes) -/

theorem test_rdParam_word : nextWith (step (onBus 0x208#11 0#32 full)) (·.trace == [.readOkay 0x01100C20#32]) = true := by decide
theorem test_rdParam_byte : nextWith (step (onBus 0x009#11 0#32 full)) (·.trace == [.readOkay 0x00000C00#32]) = true := by decide
theorem test_rdCmd : nextWith (step (onBus 0x200#11 0#32 full)) (·.trace == [.readOkay 0x00000000#32]) = true := by decide
theorem test_rdStatus : nextWith (step (onBus 0x204#11 0#32 full)) (·.trace == [.readOkay 0x00000000#32]) = true := by decide
theorem test_rdKey_byte : nextWith (step (onBus 0x013#11 0#32 full)) (·.trace == [.readOkay 0x03000000#32]) = true := by decide
theorem test_rdKey_half : nextWith (step (onBus 0x116#11 0#32 full)) (·.trace == [.readOkay 0x07060000#32]) = true := by decide
theorem test_rdData : nextWith (step (onBus 0x224#11 0#32 full)) (·.trace == [.readOkay 0x77665544#32]) = true := by decide
theorem test_wrData_byte :
    nextWith (step (onBus 0x421#11 0x0000AB00#32 full)) (fun t => t.block.data == #v[0x3322AB00#32, 0x77665544#32]) = true := by decide
theorem test_wrData_other_lanes_ignored :
    nextWith (step (onBus 0x425#11 0xFFFF12FF#32 full)) (fun t => t.block.data == #v[0x33221100#32, 0x77661244#32]) = true := by decide
/-- R50: the words at 0x40, 0x80 and 0xA4 are S[0], S[16] and S[25] of V1. -/
theorem test_rdSLow : nextWith (step (onBus 0x240#11 0#32 full)) (·.trace == [.readOkay 0xd447e233#32]) = true := by decide
theorem test_rdSMid : nextWith (step (onBus 0x280#11 0#32 full)) (·.trace == [.readOkay 0x4da0ab3a#32]) = true := by decide
theorem test_rdSHigh : nextWith (step (onBus 0x2A4#11 0#32 full)) (·.trace == [.readOkay 0x15e8e206#32]) = true := by decide

/-! ### One step each: V15, P5 (unwritten bytes) and the writes -/

theorem test_wrKey_half :
    nextWith (step (onBus 0x51C#11 0x00000D0C#32 State.reset))
      (fun t => t.block.key[3] == 0x00000D0C#32 && t.block.keyWritten == #v[0, 0, 0, 3]) = true := by decide
theorem test_wrKey_busy_dropped :
    nextWith (step (onBus 0x410#11 0x55#32 (running .expand)))
      (fun t => t.block.errBusy && t.block.key == keyV1 && t.trace == [.writeOkay]) = true := by decide
theorem test_wrSLow :
    nextWith (step (onBus 0x440#11 0x11#32 State.reset)) (fun t =>
      nextWith (step (onBus 0x040#11 0#32 t)) (·.trace == [.readOkay 0x00000011#32, .writeOkay]) &&
        faultWith (step (onBus 0x041#11 0#32 t)) (· == .unwrittenRead 0x41#8 .byte)) = true := by decide
theorem test_wrSMid :
    nextWith (step (onBus 0x680#11 0xDEADBEEF#32 full)) (fun t => t.block.s[16] == 0xDEADBEEF#32 && t.block.s[15] == 0x638829b4#32) = true := by decide
theorem test_wrSHigh :
    nextWith (step (onBus 0x5A6#11 0x12340000#32 full)) (fun t => t.block.s[25] == 0x1234e206#32) = true := by decide
theorem test_rdS_unwritten : faultWith (step (onBus 0x240#11 0#32 State.reset)) (· == .unwrittenRead 0x40#8 .word) = true := by decide
/-- P5: byte 0x1F is still unwritten. -/
theorem test_expand_unwritten_byte :
    faultWith (step (onBus 0x600#11 1#32 { full with block := { fullBlock with keyWritten := #v[0xF, 0xF, 0xF, 0x7] } }))
      (· == .unwrittenInput .expand) = true := by decide
theorem test_encode_unwritten_table :
    faultWith (step (onBus 0x600#11 2#32 { full with block := { fullBlock with sWritten := Vector.replicate 26 0 } }))
      (· == .unwrittenInput .encode) = true := by decide
theorem test_reset_input :
    nextWith (step { running .encode with inputs := [.reset] }) (fun t => t.block == Block.reset && t.trace == []) = true := by decide

/-! ### One step each: V14 (STATUS and commands) -/

theorem test_wrStatus_one_bit :
    nextWith (step (onBus 0x604#11 2#32 (withStatus true true true))) (fun t => statusWord t.block == 0xC#32) = true := by decide
theorem test_wrStatus_busy_bit_ignored :
    nextWith (step (onBus 0x604#11 1#32 (withStatus true true true))) (fun t => statusWord t.block == 0xE#32) = true := by decide
theorem test_nop :
    nextWith (exec .nop (withStatus true false false)) (fun t => statusWord t.block == 2#32) = true := by decide
theorem test_wrCmd_illegal :
    nextWith (step (onBus 0x600#11 0x80000001#32 full)) (fun t => statusWord t.block == 4#32) = true := by decide
theorem test_wrCmd_busy_illegal :
    nextWith (step (onBus 0x600#11 7#32 (running .expand))) (fun t => statusWord t.block == 9#32) = true := by decide
theorem test_expand_accepted :
    nextWith (step (onBus 0x600#11 1#32 (withStatus true true false))) (fun t => statusWord t.block == 5#32 && t.block.phase == .expand) = true := by decide
theorem test_misaligned_while_busy :
    nextWith (step (onBus 0x613#11 0#32 (running .expand)))
      (fun t => statusWord t.block == 1#32 && t.trace == [.error 0x13#8 (some .word) .misaligned]) = true := by decide
/-- ENCODE accepted, then its whitening (V2). -/
theorem test_encode_whitening :
    nextWith (exec .encode full) (fun t => nextWith (step t)
      (fun u => u.block.a == 0x0769f333#32 && u.block.b == 0x4f954164#32 && u.block.r == 1)) = true := by decide
/-- V2: the last round writes DATA. -/
theorem test_encode_completion :
    let u := engineStep { fullBlock with phase := .encode, r := 12, a := 0xafd01b5e#32, b := 0xad58993c#32 }
    u.data = #v[0x9b14dc2d#32, 0x9e8b08cf#32] ∧ statusWord u = 2#32 := by decide
/-- DECODE accepted, then its round 12 (V4). -/
theorem test_decode_round_12 :
    nextWith (exec .decode { full with block := { fullBlock with data := #v[0x9b14dc2d#32, 0x9e8b08cf#32] } })
      (fun t => nextWith (step t) (fun u => u.block.a == 0xafd01b5e#32 && u.block.b == 0xad58993c#32)) = true := by decide
/-- V4: the un-whitening writes DATA. -/
theorem test_decode_completion :
    let u := engineStep { fullBlock with phase := .decode, r := 0, a := 0x0769f333#32, b := 0x4f954164#32, data := #v[0, 0] }
    u.data = #v[0x33221100#32, 0x77665544#32] ∧ statusWord u = 2#32 := by decide
/-- R121: the first two initialisation micro-steps (section 4: S[1] is 0x5618cb1c). -/
theorem test_expand_initialisation :
    let u := engineStep (engineStep { fullBlock with phase := .expand, m := 0 })
    u.s[0] = 0xb7e15163#32 ∧ u.s[1] = 0x5618cb1c#32 ∧ u.m = 2 := by decide

/-! ### Witnesses: concrete values that meet the hypotheses of a statement together -/

theorem allWritten_full_key : AllWritten fullBlock 0x10 0x20 := (keyReady_iff _).1 (by decide)
theorem allWritten_full_data : AllWritten fullBlock 0x20 0x28 := (dataReady_iff _).1 (by decide)
theorem allWritten_full_table : AllWritten fullBlock 0x40 0xA8 := (tableReady_iff _).1 (by decide)

/-- The amounts 0, 32 and 31, 33. -/
theorem witness_RotationsTakeTheirAmountModulo32 : 0 % 32 = 0 ∧ 32 % 32 = 0 ∧ 31 % 32 ≠ 0 ∧ 33 % 32 ≠ 0 := by decide
theorem witness_ByteSequencesPackGroupByGroup : [1#8, 2#8, 3#8, 4#8].length = 4 * 1 ∧ 0 < 1 ∧ 3 < 4 := by decide
theorem witness_DecodeOfEncodeIsTheInstruction :
    Instr.wellFormed (.wrSHigh .half 6#3 0xFFFFFFFF#32) = true ∧ Instr.wellFormed (.rdKey .byte 0xF#4) = true ∧
      Instr.wellFormed .decode = true := by decide
theorem witness_EncodeOfDecodeIsTheWord :
    decode (.bus 0x2A4#11 7#32) = .ok (.rdSHigh .word 4#3) ∧ decode (.bus 0x41F#11 7#32) = .ok (.wrKey .byte 15#4 7#32) ∧
      decode (.cmd 3#32) = .ok .decode := by decide
theorem witness_NoHeaderMatchesTwoRows :
    BusRow.covers .rdSLow 0x27C#11 = true ∧ decodeBus 0x27C#11 0#32 = .ok (.rdSLow .word 0x3C#6) := by decide
/-- Each of the five kinds, at the edges of its range of offsets. -/
theorem witness_BusErrorsHaveTheirCausesAndNoEffect :
    (onBus 0x710#11 0#32 full).inputs = [.bus 0x710#11 0#32] ∧ decodeBus 0x710#11 0#32 = .error .rsvdSize ∧
      decodeBus 0x20C#11 0#32 = .error .unmapped ∧ decodeBus 0x00F#11 0#32 = .error .unmapped ∧
      decodeBus 0x628#11 0#32 = .error .unmapped ∧ decodeBus 0x03F#11 0#32 = .error .unmapped ∧
      decodeBus 0x0A8#11 0#32 = .error .unmapped ∧ decodeBus 0x4FF#11 0#32 = .error .unmapped ∧
      decodeBus 0x000#11 0#32 = .error .badSize ∧ decodeBus 0x607#11 0#32 = .error .badSize ∧
      decodeBus 0x608#11 0#32 = .error .roWrite ∧ decodeBus 0x40B#11 0#32 = .error .roWrite ∧
      decodeBus 0x109#11 0#32 = .error .misaligned ∧ decodeBus 0x226#11 0#32 = .error .misaligned ∧
      decodeBus 0x6A6#11 0#32 = .error .misaligned := by decide
theorem witness_BusErrorsHaveTheirCausesAndNoEffect_strobes :
    ∀ (sz : Size) (off : Offset), aligned sz off = true → 0b0110#4 ≠ accessLanes sz off := by
  intro sz
  cases sz <;> decide +kernel
theorem witness_MisalignedFormsAreBusErrors :
    Instr.access (.wrSHigh .word 6#3 0#32) = some (.word, 0xA6#8) ∧ aligned .word 0xA6#8 = false ∧
      Instr.access (.rdParam .half 1#2) = some (.half, 0x09#8) ∧ aligned .half 0x09#8 = false := by decide
theorem witness_StepRunsTheDecodedInstruction :
    (onBus 0x208#11 0#32 full).inputs = [.bus 0x208#11 0#32] ∧ decodeBus 0x208#11 0#32 = .ok (.rdParam .word 0#2) := by decide
theorem witness_CommandWordsRunAsTheWdataOfWrCmd :
    decode (.cmd 3#32) = .ok .decode ∧ (onBus 0x600#11 3#32 full).inputs = [.bus 0x600#11 3#32] := by decide
theorem witness_EngineTurnsAreMicroSteps :
    full.inputs = [] ∧ { full with inputs := [.engine] }.inputs = [.engine] ∧ full.block.phase = .idle := by decide
theorem witness_NothingIsRefused :
    step (onBus 0x240#11 0#32 State.reset) = .fault (.unwrittenRead 0x40#8 .word) := by rfl
/-- Each clause; the ERR_BUSY clause with a word that would be illegal, the MISALIGNED one while busy. -/
theorem witness_OutcomesFollowTheirPriority :
    (onBus 0x330#11 0#32 full).inputs = [.bus 0x330#11 0#32] ∧ headerSz 0x330#11 = 3#2 ∧
      headerSz 0x230#11 ≠ 3#2 ∧ mapped (headerOff 0x230#11) = false ∧
      headerSz 0x607#11 ≠ 3#2 ∧ (headerOff 0x607#11).toNat ≤ 0x07 ∧
      ¬ (headerSz 0x607#11 = 2#2 ∧ ((headerOff 0x607#11).toNat = 0 ∨ (headerOff 0x607#11).toNat = 4)) ∧
      headerSz 0x60B#11 ≠ 3#2 ∧ 0x08 ≤ (headerOff 0x60B#11).toNat ∧ (headerOff 0x60B#11).toNat ≤ 0x0B ∧
      headerWr 0x60B#11 = true ∧ decodeBus 0x613#11 0#32 = .error .misaligned ∧
      decodeBus 0x600#11 7#32 = .ok (.wrCmd 7#32) ∧ Instr.writesGuarded (.wrCmd 7#32) = true ∧
      busy (running .expand).block = true ∧ busy full.block = false ∧ decodeCommand 7#32 = none := by decide
theorem witness_ResetInputAbandonsTheOperation : { running .encode with inputs := [.reset] }.inputs = [.reset] := rfl
theorem witness_ParamReadsAnswerTheConstant : aligned .byte (paramOff 3#2) = true ∧ aligned .word (paramOff 0#2) = true := by decide
theorem witness_KeyReadsAnswerTheStoredBytes :
    aligned .word (keyOff 12#4) = true ∧ CoveredWritten fullBlock .word (keyOff 12#4) :=
  ⟨by decide, fun x hx => allWritten_full_key x (by have := hx.1; simp at this; omega)
    (by have := hx.2; simp [Size.bytes] at this; omega)⟩
theorem witness_DataReadsAnswerTheStoredBytes :
    aligned .word (dataOff 4#3) = true ∧ CoveredWritten fullBlock .word (dataOff 4#3) ∧
      full.block.phase = .idle ∧ (running .expand).block.phase = .expand :=
  ⟨by decide, fun x hx => allWritten_full_data x (by have := hx.1; simp at this; omega)
    (by have := hx.2; simp [Size.bytes] at this; omega), rfl, rfl⟩
/-- The first byte of the first row and the last word of the last. -/
theorem witness_TableReadsAnswerTheStoredBytes :
    (aligned .byte (sLowOff 0#6) = true ∧ CoveredWritten fullBlock .byte (sLowOff 0#6)) ∧
      (aligned .word (sHighOff 4#3) = true ∧ CoveredWritten fullBlock .word (sHighOff 4#3)) ∧
      (aligned .half (sMidOff 30#5) = true ∧ CoveredWritten fullBlock .half (sMidOff 30#5)) ∧ full.block.phase ≠ .expand := by
  refine ⟨⟨by decide, fun x hx => ?_⟩, ⟨by decide, fun x hx => ?_⟩, ⟨by decide, fun x hx => ?_⟩, by decide⟩ <;>
    obtain ⟨h1, h2⟩ := hx <;> simp [Size.bytes] at h1 h2 <;> exact allWritten_full_table x (by omega) (by omega)
theorem witness_ReadsOfStorageInUseAreFree :
    (running .expand).block.phase = .expand ∧ aligned .word (sHighOff 4#3) = true ∧
      (running .decode).block.phase = .decode ∧ aligned .byte (dataOff 7#3) = true := by decide
/-- A covered unwritten byte, in each of the three storages. -/
theorem witness_ReadsOfUnwrittenBytesFault :
    aligned .half (keyOff 14#4) = true ∧ Covers .half (keyOff 14#4) 0x1F#8 ∧ storedByte State.reset.block 0x1F#8 = none ∧
      State.reset.block.phase = .idle ∧ aligned .byte (dataOff 7#3) = true ∧ Covers .byte (dataOff 7#3) 0x27#8 ∧
      storedByte State.reset.block 0x27#8 = none ∧ aligned .word (sHighOff 4#3) = true ∧
      Covers .word (sHighOff 4#3) 0xA7#8 ∧ storedByte State.reset.block 0xA7#8 = none := by decide
theorem witness_ReadDataTravelsOnItsLanes :
    aligned .byte 0x13#8 = true ∧ aligned .half 0x16#8 = true ∧ ¬ CoversLane .half 0x16#8 1 := by decide
theorem witness_ReadsChangeNothingAndStorageWritesAreIdempotent :
    Instr.isRead (.rdKey .byte 3#4) = true ∧ nextWith (exec (.rdKey .byte 3#4) full) (fun _ => true) = true ∧
      Instr.isRead (.wrKey .byte 3#4 7#32) = false ∧ Instr.operation (.wrKey .byte 3#4 7#32) = none ∧
      nextWith (exec (.wrKey .byte 3#4 7#32) full)
        (fun t => nextWith (exec (.wrKey .byte 3#4 7#32) t) (fun _ => true)) = true := by decide
theorem witness_WriteDataTravelsOnItsLanes :
    aligned .byte 0x27#8 = true ∧ ∀ k < 4, CoversLane .byte 0x27#8 k → byteLane 0xAB123456#32 k = byteLane 0xAB000000#32 k := by
  decide
theorem witness_KeyWritesStoreTheirLanes : aligned .half (keyOff 14#4) = true ∧ busy full.block = false := by decide
theorem witness_DataWritesStoreTheirLanes : aligned .byte (dataOff 7#3) = true ∧ busy full.block = false := by decide
theorem witness_TableWritesStoreTheirLanes :
    aligned .byte (sLowOff 0#6) = true ∧ aligned .half (sMidOff 30#5) = true ∧ aligned .word (sHighOff 4#3) = true ∧
      busy full.block = false := by decide
theorem witness_WritesWhileBusyAreDropped :
    busy (running .decode).block = true ∧ Instr.writesGuarded (.wrSMid .byte 3#5 7#32) = true ∧
      Instr.wellFormed (.wrSMid .byte 3#5 7#32) = true := by decide
/-- 4 and 0xFFFFFFFF are the least and the greatest illegal words. -/
theorem witness_CommandWriteDispatches :
    busy (running .encode).block = true ∧ busy full.block = false ∧ 3 < (4#32).toNat ∧ 3 < (0xFFFFFFFF#32).toNat ∧
      AllWritten full.block 0x10 0x20 ∧ AllWritten full.block 0x20 0x28 ∧ AllWritten full.block 0x40 0xA8 :=
  ⟨by decide, by decide, by decide, by decide, allWritten_full_key, allWritten_full_data, allWritten_full_table⟩
theorem witness_NopHasNoEffect : busy full.block = false ∧ busy (running .expand).block = true := by decide
theorem witness_OperationsAreAccepted :
    busy (withStatus true true true).block = false ∧ AllWritten full.block 0x10 0x20 ∧ AllWritten full.block 0x20 0x28 ∧
      AllWritten full.block 0x40 0xA8 := ⟨by decide, allWritten_full_key, allWritten_full_data, allWritten_full_table⟩
theorem witness_UnwrittenInputsFaultAtAcceptance :
    busy State.reset.block = false ∧ ¬ AllWritten State.reset.block 0x10 0x20 ∧
      ¬ (AllWritten State.reset.block 0x20 0x28 ∧ AllWritten State.reset.block 0x40 0xA8) :=
  ⟨by decide, fun h => absurd (h 0x1F#8 (by decide) (by decide)) (by decide),
    fun h => absurd (h.2 0xA7#8 (by decide) (by decide)) (by decide)⟩
/-- Busy before and after a read; idle before and busy after EXPAND; busy before and idle after a last micro-step. -/
theorem witness_BusyIsSetByAcceptanceAndClearedByCompletion :
    (busy (running .expand).block = true ∧ nextWith (exec .rdStatus (running .expand)) (fun _ => true) = true) ∧
      (busy full.block = false ∧ nextWith (exec .expand full) (fun t => busy t.block) = true) ∧
      nextWith (step (running .decode)) (fun t => !busy t.block) = true := by decide
theorem witness_DoneIsSetByCompletionOnly :
    ((engineStep (running .decode).block).done = true ∧ (running .decode).block.done = false) ∧
      ((running .decode).block.phase ≠ .idle ∧ (engineStep (running .decode).block).phase = .idle) ∧
      nextWith (exec .expand (withStatus true false false)) (fun t => !t.block.done && busy t.block) = true ∧
      BitVec.getLsbD 2#32 1 = true ∧
      nextWith (exec (.wrStatus 2#32) (withStatus true false false)) (fun t => !t.block.done) = true ∧
      nextWith (step (running .expand)) (fun t => busy t.block && !t.block.done) = true ∧
      nextWith (step { full with inputs := [.reset] }) (fun t => !t.block.done) = true := by decide
theorem witness_ErrorFlagsAreSticky :
    nextWith (exec (.wrStatus 4#32) (withStatus false true false)) (fun t => !t.block.errCmd) = true ∧
      nextWith (exec (.wrStatus 8#32) (withStatus false false true)) (fun t => !t.block.errBusy) = true ∧
      nextWith (exec (.wrCmd 4#32) full) (fun t => t.block.errCmd) = true ∧
      nextWith (exec (.wrCmd 4#32) (running .expand)) (fun t => t.block.errBusy) = true := by decide
/-- The first and the last initialisation micro-step. -/
theorem witness_InitialisationIsTheProgression :
    (running .expand).block.phase = .expand ∧ (running .expand).block.m = 0 ∧
      { fullBlock with phase := .expand, m := 25 }.m < 26 ∧ 25 < 26 := by decide
theorem witness_MixingStepFollowsItsOrder :
    (let blk := { fullBlock with phase := .expand, m := 25 }
     blk.phase = .expand ∧ blk.m = 25) ∧
      (let blk := { fullBlock with phase := .expand, m := 26, i := 25, j := 3 }
       blk.phase = .expand ∧ blk.m = 26 ∧ (0 : Fin 26) ≠ blk.i ∧ (0 : Fin 4) ≠ blk.j) := by decide
theorem witness_MixingAmountNeedsTheLowBitsOnly : low5 (0xFFFFFFFF#32 + 1#32) = 0 := by decide
theorem witness_EncodeMicroStepsAreTheRounds :
    (running .encode).block.phase = .encode ∧ (running .encode).block.r = 0 ∧
      (let blk := { fullBlock with phase := .encode, r := 1 }
       blk.phase = .encode ∧ 1 ≤ blk.r ∧ blk.r ≤ 12) ∧
      (let blk := { fullBlock with phase := .encode, r := 12 }
       blk.phase = .encode ∧ 1 ≤ blk.r ∧ blk.r ≤ 12) := by decide
theorem witness_DecodeMicroStepsAreTheRounds :
    (let blk := { fullBlock with phase := .decode, r := 1 }
     blk.phase = .decode ∧ 1 ≤ blk.r ∧ blk.r ≤ 12) ∧
      (let blk := { fullBlock with phase := .decode, r := 12 }
       blk.phase = .decode ∧ 1 ≤ blk.r ∧ blk.r ≤ 12) := by decide
theorem witness_CompletionWritesTheResults :
    (let blk := { fullBlock with phase := .expand, m := 26, k := 77 }
     blk.phase = .expand ∧ blk.m = 26 ∧ blk.k = 77) ∧
      (let blk := { fullBlock with phase := .encode, r := 12 }
       blk.phase = .encode ∧ blk.r = 12) ∧
      (let blk := { fullBlock with phase := .decode, r := 0 }
       blk.phase = .decode ∧ blk.r = 0) := by decide
theorem witness_OperationsWriteOnlyTheirOutput :
    (running .expand).block.phase = .expand ∧ (running .encode).block.phase = .encode ∧
      (running .decode).block.phase = .decode := by decide
theorem witness_ExpandComputesTheKeyTable :
    full.inputs = [] ∧ busy full.block = false ∧ AllWritten full.block 0x10 0x20 := ⟨rfl, by decide, allWritten_full_key⟩
theorem witness_EncodeComputesTheCiphertext :
    full.inputs = [] ∧ busy full.block = false ∧ AllWritten full.block 0x20 0x28 ∧ AllWritten full.block 0x40 0xA8 :=
  ⟨rfl, by decide, allWritten_full_data, allWritten_full_table⟩
theorem witness_DecodeComputesThePlaintext :
    full.inputs = [] ∧ busy full.block = false ∧ AllWritten full.block 0x20 0x28 ∧ AllWritten full.block 0x40 0xA8 :=
  ⟨rfl, by decide, allWritten_full_data, allWritten_full_table⟩
theorem witness_DecodeAfterEncodeRestoresData :
    full.inputs = [] ∧ busy full.block = false ∧ AllWritten full.block 0x20 0x28 ∧ AllWritten full.block 0x40 0xA8 :=
  ⟨rfl, by decide, allWritten_full_data, allWritten_full_table⟩

/-- The machine right after EXPAND is accepted, and right after ENCODE and DECODE are. -/
theorem controlInv_running_expand : ControlInv (running .expand).block := by constructor <;> decide
theorem controlInv_running_encode : ControlInv (running .encode).block := by constructor <;> decide
theorem controlInv_running_decode : ControlInv (running .decode).block := by constructor <;> decide
theorem progressInv_running_encode : ProgressInv (running .encode).block := by
  constructor <;> intro h <;> first | exact absurd h (by decide) | exact fun h' => absurd rfl h'

theorem witness_EveryOperationCompletes :
    ControlInv (running .expand).block ∧ (running .expand).inputs = [] ∧ busy (running .expand).block = true :=
  ⟨controlInv_running_expand, rfl, by decide⟩
theorem witness_StepKeepsTheControlInvariant :
    ControlInv (running .decode).block ∧ nextWith (step (running .decode)) (fun _ => true) = true :=
  ⟨controlInv_running_decode, by decide⟩
theorem witness_StepKeepsTheProgressInvariant :
    ControlInv (running .encode).block ∧ ProgressInv (running .encode).block ∧
      nextWith (step (running .encode)) (fun _ => true) = true :=
  ⟨controlInv_running_encode, progressInv_running_encode, by decide⟩

/-- ENCODE at its last round, with the accumulators of V2's round 11. -/
def lastRound : State :=
  { full with block := { fullBlock with phase := .encode, r := 12, a := 0xafd01b5e#32, b := 0xad58993c#32 } }

theorem witness_CompletionIsCorrectUnderEveryInterleaving :
    ControlInv lastRound.block ∧ ProgressInv lastRound.block ∧ busy lastRound.block = true ∧
      nextWith (step lastRound) (fun t => t.block.phase == .idle) = true ∧
      (∀ rest, lastRound.inputs ≠ .reset :: rest) ∧ lastRound.block.phase = .encode := by
  refine ⟨by constructor <;> decide, ?_, by decide, by decide, fun rest h => (by cases h), rfl⟩
  constructor <;> intro h <;> first | exact absurd h (by decide) | skip
  exact fun _ => by decide +kernel

/-- Two machines with the same view, that differ in hidden state and in a KEY byte behind its mark. -/
def hiddenA : State := { State.reset with block := { Block.reset with a := 1#32, key := #v[0xFF#32, 0, 0, 0] } }

theorem witness_TransactionsShowTheHostViewOnly : SameView hiddenA State.reset ∧ hiddenA ≠ State.reset :=
  ⟨⟨by decide +kernel, rfl, rfl, rfl⟩, by decide⟩
theorem witness_HiddenValuesNeverReachTheHost :
    ControlInv hiddenA.block ∧ ControlInv State.reset.block ∧ Indistinguishable hiddenA State.reset :=
  ⟨by constructor <;> decide, by constructor <;> decide, ⟨⟨by decide +kernel, rfl, rfl, rfl⟩, trivial⟩⟩
theorem witness_SystemAddressesReachTheirOffsets : (0x1204 : Nat) % 256 = 0x9904 % 256 := by decide
theorem witness_StrobesGiveTheSizeCode :
    aligned .half 0x16#8 = true ∧ (∀ (sz : Size) (off : Offset), aligned sz off = true → 0b0110#4 ≠ accessLanes sz off) ∧
      { full with inputs := [strobedWrite 0x10 0b0110#4 0#32] }.inputs = [strobedWrite 0x10 0b0110#4 0#32] := by
  refine ⟨by decide, fun sz => ?_, rfl⟩
  cases sz <;> decide +kernel

end Sys2Proof.Tests
end

section
/-! PROOFS. The words of 00_scope.md: the rotations of R12 and the packing of R13. -/

namespace Sys2Proof.Machine

/-- R12: a rotation by a multiple of 32 is the identity. -/
theorem rotl32_of_mod_eq_zero (v : Word) {n : Nat} (h : n % 32 = 0) : rotl32 v n = v := by simp [rotl32, h]

theorem rotr32_of_mod_eq_zero (v : Word) {n : Nat} (h : n % 32 = 0) : rotr32 v n = v := by simp [rotr32, h]

theorem rotl32_of_mod_ne_zero (v : Word) {n : Nat} (h : n % 32 ≠ 0) :
    rotl32 v n = v <<< (n % 32) ||| v >>> (32 - n % 32) := by simp [rotl32, h]

theorem rotr32_of_mod_ne_zero (v : Word) {n : Nat} (h : n % 32 ≠ 0) :
    rotr32 v n = v >>> (n % 32) ||| v <<< (32 - n % 32) := by simp [rotr32, h]

/-- R12: only the amount modulo 32 counts. -/
theorem rotl32_mod (v : Word) (n : Nat) : rotl32 v (n % 32) = rotl32 v n := by simp [rotl32]

/-- Bit `i` of a right rotation comes from `n` places above, cyclically. -/
theorem getElem_rotr32 (v : Word) (n : Nat) {i : Nat} (hi : i < 32) :
    (rotr32 v n)[i] = v[(i + n) % 32]'(Nat.mod_lt _ (by decide)) := by
  simp only [rotr32_eq_rotateRight, BitVec.getElem_rotateRight]
  by_cases h : i < 32 - n % 32
  · simp only [h, dite_true, show (i + n) % 32 = n % 32 + i by omega]
  · simp only [h, dite_false, show (i + n) % 32 = i - (32 - n % 32) by omega]

/-- Bit `i` of a left rotation comes from `n` places below, cyclically. -/
theorem getElem_rotl32 (v : Word) (n : Nat) {i : Nat} (hi : i < 32) :
    (rotl32 v n)[i] = v[(i + (32 - n % 32)) % 32]'(Nat.mod_lt _ (by decide)) := by
  simp only [rotl32_eq_rotateLeft, BitVec.getElem_rotateLeft]
  by_cases h : i < n % 32
  · simp only [h, dite_true, show (i + (32 - n % 32)) % 32 = 32 - n % 32 + i by omega]
  · simp only [h, dite_false, show (i + (32 - n % 32)) % 32 = i - n % 32 by omega]

@[simp] theorem rotr32_rotl32 (v : Word) (n : Nat) : rotr32 (rotl32 v n) n = v := by
  apply BitVec.eq_of_getElem_eq
  intro i hi
  have back : ((i + n) % 32 + (32 - n % 32)) % 32 = i := by omega
  simp only [getElem_rotr32 _ _ hi, getElem_rotl32, back]

@[simp] theorem rotl32_rotr32 (v : Word) (n : Nat) : rotl32 (rotr32 v n) n = v := by
  apply BitVec.eq_of_getElem_eq
  intro i hi
  have back : ((i + (32 - n % 32)) % 32 + n) % 32 = i := by omega
  simp only [getElem_rotl32 _ _ hi, getElem_rotr32, back]

/-- Packing the byte lanes of a word gives the word back (R13). -/
@[simp] theorem pack4_byteLane (w : Word) :
    pack4 (byteLane w 0) (byteLane w 1) (byteLane w 2) (byteLane w 3) = w :=
  word_ext_lanes (forall_lane.2 (by simp))

@[simp] theorem unpack4_pack4 (b0 b1 b2 b3 : Byte) : unpack4 (pack4 b0 b1 b2 b3) = [b0, b1, b2, b3] := by
  simp [unpack4]

theorem toNat_byteLane (w : Word) (k : Nat) : (byteLane w k).toNat = w.toNat / 2 ^ (8 * k) % 2 ^ 8 := by
  simp [byteLane, Nat.shiftRight_eq_div_pow]

/-- A word is the sum of its byte lanes at their places. -/
theorem toNat_eq_sum_byteLane (w : Word) :
    w.toNat = (byteLane w 0).toNat + (byteLane w 1).toNat * 2 ^ 8 + (byteLane w 2).toNat * 2 ^ 16 +
      (byteLane w 3).toNat * 2 ^ 24 := by
  simp only [toNat_byteLane]
  omega

theorem toNat_pack4 (b0 b1 b2 b3 : Byte) :
    (pack4 b0 b1 b2 b3).toNat = b0.toNat + b1.toNat * 2 ^ 8 + b2.toNat * 2 ^ 16 + b3.toNat * 2 ^ 24 := by
  simpa using toNat_eq_sum_byteLane (pack4 b0 b1 b2 b3)

/-- Settles O1: each clause is the rotation lemma of its name; the two inverses hold bit by bit. -/
theorem rotationsTakeTheirAmountModulo32 : Obligations.RotationsTakeTheirAmountModulo32 := by
  intro v w n
  exact ⟨fun h => ⟨rotl32_of_mod_eq_zero v h, rotr32_of_mod_eq_zero v h⟩,
    fun h => ⟨rotl32_of_mod_ne_zero v h, rotr32_of_mod_ne_zero v h⟩,
    (rotl32_mod v w.toNat).symm, low5_eq_mod w, rotr32_rotl32 v n, rotl32_rotr32 v n⟩

/-- Settles O2: a word is its four byte lanes, and the lanes of a packed word are its bytes. -/
theorem packingAndUnpackingAreInverse : Obligations.PackingAndUnpackingAreInverse :=
  ⟨unpack4_pack4, toNat_pack4, fun w => ⟨rfl, pack4_byteLane w⟩⟩

end Sys2Proof.Machine
end

section
/-! PROOFS. The status bits of 10_state.md: BUSY (R24) and DONE (R25) over every instruction, micro-step and step. -/

namespace Sys2Proof.Machine

/-- What a micro-step can do to BUSY and DONE: run on with both as they were, or complete (R110). -/
def RunsOnOrCompletes (before after : Block) : Prop :=
  (after.phase = before.phase ∧ after.done = before.done) ∨ (after.phase = .idle ∧ after.done = true)

theorem expandMicro_runsOnOrCompletes (blk : Block) : RunsOnOrCompletes blk (expandMicro blk) := by
  rcases expandMicro_cases blk with ⟨_, e⟩ | ⟨_, e⟩ | ⟨_, _, e⟩ | ⟨_, _, e⟩ <;> rw [e]
  case inr.inr.inr => exact .inr ⟨rfl, rfl⟩
  all_goals exact .inl ⟨rfl, rfl⟩

theorem encodeMicro_runsOnOrCompletes (blk : Block) : RunsOnOrCompletes blk (encodeMicro blk) := by
  rcases encodeMicro_cases blk with ⟨_, e⟩ | ⟨_, _, e⟩ | ⟨_, e⟩ <;> rw [e]
  case inr.inr => exact .inr ⟨rfl, rfl⟩
  all_goals exact .inl ⟨rfl, rfl⟩

theorem decodeMicro_runsOnOrCompletes (blk : Block) : RunsOnOrCompletes blk (decodeMicro blk) := by
  rcases decodeMicro_cases blk with ⟨_, e⟩ | ⟨_, e⟩ <;> rw [e]
  · exact .inr ⟨rfl, rfl⟩
  · exact .inl ⟨rfl, rfl⟩

theorem engineStep_runsOnOrCompletes (blk : Block) : RunsOnOrCompletes blk (engineStep blk) :=
  engineStep_induct (p := RunsOnOrCompletes) blk (.inl ⟨rfl, rfl⟩) (expandMicro_runsOnOrCompletes blk)
    (encodeMicro_runsOnOrCompletes blk) (decodeMicro_runsOnOrCompletes blk)

/-- A micro-step that ends the operation sets DONE. -/
theorem engineStep_done_of_completes {blk : Block} (hp : blk.phase ≠ .idle) (h : (engineStep blk).phase = .idle) :
    (engineStep blk).done = true := by
  rcases engineStep_runsOnOrCompletes blk with ⟨hphase, _⟩ | ⟨_, hdone⟩
  · exact absurd (hphase ▸ h) hp
  · exact hdone

/-- The two forms of an accepted instruction ask for the operation it starts (R70, R103). -/
theorem operation_eq_some {i : Instr} {op : Operation}
    (h : i = (Command.run op).instr ∨ ∃ c, i = .wrCmd c ∧ decodeCommand c = some (.run op)) :
    i.operation = some op := by
  rcases h with rfl | ⟨c, rfl, hc⟩
  · cases op <;> rfl
  · simp [Instr.operation, hc]

/-- What an instruction that goes on can do to BUSY and DONE: leave both, write STATUS, or have an operation accepted. -/
theorem exec_busy_done_cases {i : Instr} {s t : State} (h : exec i s = .next t) :
    (t.block.phase = s.block.phase ∧ t.block.done = s.block.done) ∨
      (∃ v, i = .wrStatus v ∧ t.block = clearStatus v s.block) ∨
      ∃ op, i.operation = some op ∧ busy s.block = false ∧ inputsReady op s.block = true ∧
        t.block = accept op s.block := by
  cases exec_effect h with
  | answered _ _ e | drew _ _ e _ | dropped _ _ _ e | illegal _ _ _ e | storedKey _ _ _ _ _ e
  | storedData _ _ _ _ _ e | storedTable _ _ _ _ _ _ _ e => subst e; exact .inl ⟨rfl, rfl⟩
  | cleared v e => subst e; exact .inr (.inl ⟨v, rfl, rfl⟩)
  | accepted _ op hb hr hi e => subst e; exact .inr (.inr ⟨op, operation_eq_some hi, hb, hr, rfl⟩)

/-- Of the instructions, only an accepted operation changes the phase. -/
theorem exec_phase_eq_or_accepts {i : Instr} {s t : State} (h : exec i s = .next t) :
    t.block.phase = s.block.phase ∨
      ∃ op, i.operation = some op ∧ busy s.block = false ∧ inputsReady op s.block = true ∧
        t.block = accept op s.block := by
  rcases exec_busy_done_cases h with ⟨hphase, _⟩ | ⟨v, _, e⟩ | haccept
  · exact .inl hphase
  · exact .inl (by simp [e])
  · exact .inr haccept

/-- No instruction changes the phase of a running operation (R99). -/
theorem exec_phase_of_busy {i : Instr} {s t : State} (h : exec i s = .next t) (hb : busy s.block = true) :
    t.block.phase = s.block.phase := by
  rcases exec_phase_eq_or_accepts h with hphase | ⟨op, _, hidle, _⟩
  · exact hphase
  · exact absurd hb (by simp [hidle])

/-- An instruction that makes the block busy is an acceptance. -/
theorem exec_accepts_of_starts {i : Instr} {s t : State} (h : exec i s = .next t) (hs : busy s.block = false)
    (ht : busy t.block = true) :
    ∃ op, i.operation = some op ∧ inputsReady op s.block = true ∧ t.block = accept op s.block := by
  rcases exec_phase_eq_or_accepts h with hphase | ⟨op, hop, _, hr, e⟩
  · rw [busy_iff, hphase] at ht
    exact absurd (busy_false_iff.1 hs) ht
  · exact ⟨op, hop, hr, e⟩

/-- A step that makes the block idle is the reset input or a completing micro-step. -/
theorem step_completes_or_resets {s t : State} (h : step s = .next t) (hs : busy s.block = true)
    (ht : busy t.block = false) :
    (∃ rest, s.inputs = .reset :: rest) ∨ (t.block = engineStep s.block ∧ t.block.done = true) := by
  rw [busy_false_iff] at ht
  rcases step_block_cases h with e | ⟨hreset, _⟩ | ⟨i, s', e, hexec⟩ | e
  · rw [e] at ht ⊢
    exact .inr ⟨rfl, engineStep_done_of_completes (busy_iff.1 hs) ht⟩
  · exact .inl hreset
  · have hphase := exec_phase_of_busy hexec (e ▸ hs)
    exact absurd (e ▸ hphase ▸ ht) (busy_iff.1 hs)
  · exact absurd (e ▸ ht) (busy_iff.1 hs)

/-- Settles O36: BUSY is the phase; only an acceptance starts an operation, and only a completion or the reset input ends one. -/
theorem busyIsSetByAcceptanceAndClearedByCompletion : Obligations.BusyIsSetByAcceptanceAndClearedByCompletion :=
  ⟨fun blk => (by rw [getLsbD_statusWord]; exact busy_iff), busy_accept,
    fun _ _ _ h => ⟨exec_phase_of_busy h, exec_accepts_of_starts h⟩, fun _ _ => step_completes_or_resets⟩

/-- A micro-step that changes DONE completes, and so sets it. -/
theorem engineStep_completes_of_done_ne {blk : Block} (h : (engineStep blk).done ≠ blk.done) :
    (engineStep blk).done = true ∧ (engineStep blk).phase = .idle := by
  rcases engineStep_runsOnOrCompletes blk with ⟨_, hdone⟩ | ⟨hphase, hdone⟩
  · exact absurd hdone h
  · exact ⟨hdone, hphase⟩

/-- An instruction that changes DONE clears it: an accepted operation, or a STATUS write with bit 1 set. -/
theorem exec_clears_of_done_ne {i : Instr} {s t : State} (h : exec i s = .next t)
    (hne : t.block.done ≠ s.block.done) :
    t.block.done = false ∧
      ((∃ op, i.operation = some op ∧ busy t.block = true) ∨ ∃ v, i = .wrStatus v ∧ v.getLsbD 1 = true) := by
  rcases exec_busy_done_cases h with ⟨_, hdone⟩ | ⟨v, rfl, e⟩ | ⟨op, hop, _, _, e⟩
  · exact absurd hdone hne
  · have hv : v.getLsbD 1 = true := by
      cases hv : v.getLsbD 1 with
      | true => rfl
      | false => exact absurd (by rw [e, clearStatus_done, hv, Bool.not_false, Bool.and_true]) hne
    exact ⟨by simp [e, hv], .inr ⟨v, rfl, hv⟩⟩
  · exact ⟨by simp [e], .inl ⟨op, hop, by simp [e]⟩⟩

/-- The instruction that starts an operation clears DONE (R104). -/
theorem exec_done_of_starts {i : Instr} {s t : State} (h : exec i s = .next t) (hs : busy s.block = false)
    (ht : busy t.block = true) : t.block.done = false := by
  obtain ⟨op, _, _, e⟩ := exec_accepts_of_starts h hs ht
  simp [e]

/-- A STATUS write with bit 1 set clears DONE (R92). -/
theorem exec_wrStatus_done {v : Word} {s t : State} (hv : v.getLsbD 1 = true)
    (h : exec (.wrStatus v) s = .next t) : t.block.done = false := by
  cases h
  simp [hv]

/-- "DONE is 0 while busy" is kept by every instruction: it changes DONE only to clear it, and BUSY only by an acceptance. -/
theorem exec_keeps_busy_not_done {i : Instr} {s t : State} (hs : busy s.block = true → s.block.done = false)
    (h : exec i s = .next t) (ht : busy t.block = true) : t.block.done = false := by
  cases hb : busy s.block with
  | false => exact exec_done_of_starts h hb ht
  | true =>
    by_cases hne : t.block.done = s.block.done
    · exact hne.trans (hs hb)
    · exact (exec_clears_of_done_ne h hne).1

/-- "DONE is 0 while busy" is kept by every step (R25). -/
theorem step_keeps_busy_not_done {s t : State} (hs : busy s.block = true → s.block.done = false)
    (h : step s = .next t) (ht : busy t.block = true) : t.block.done = false := by
  rcases step_block_cases h with e | ⟨_, e⟩ | ⟨i, s', e, hexec⟩ | e
  · rw [e, busy_iff] at ht
    rcases engineStep_runsOnOrCompletes s.block with ⟨hphase, hdone⟩ | ⟨hphase, _⟩
    · rw [e, hdone]
      exact hs (busy_iff.2 (hphase ▸ ht))
    · exact absurd hphase ht
  · rw [e]; rfl
  · exact exec_keeps_busy_not_done (e ▸ hs) hexec ht
  · exact e ▸ hs (e ▸ ht)

/-- The reset input clears DONE (R180). -/
theorem step_reset_done {s t : State} {rest : List Input} (hreset : s.inputs = .reset :: rest)
    (h : step s = .next t) : t.block.done = false := by
  rw [step_reset hreset] at h
  cases h
  rfl

/-- Settles O37: each clause is the lemma of one of DONE's events, and of the steps that keep it 0 while busy. -/
theorem doneIsSetByCompletionOnly : Obligations.DoneIsSetByCompletionOnly :=
  ⟨fun _ => engineStep_completes_of_done_ne, fun _ => engineStep_done_of_completes,
    fun _ _ _ => exec_clears_of_done_ne, fun _ _ _ => exec_done_of_starts, fun _ _ _ => exec_wrStatus_done,
    fun _ _ => step_keeps_busy_not_done, fun _ _ _ => step_reset_done⟩

end Sys2Proof.Machine
end

section
/-! PROOFS. What reset leaves (R38). -/

namespace Sys2Proof.Machine

/-- A byte whose lane is not marked is not stored (R39). -/
@[simp] theorem laneByte_unwritten (value : Word) (lane : Nat) : laneByte value 0#4 lane = none := by simp [laneByte]

/-- With every mark clear, no offset holds a byte (R39). -/
theorem storedByte_of_unwritten {blk : Block} (hk : blk.keyWritten = Vector.replicate 4 0)
    (hd : blk.dataWritten = Vector.replicate 2 0) (hs : blk.sWritten = Vector.replicate 26 0) (x : Offset) :
    storedByte blk x = none := by
  by_cases key : 0x10 ≤ x.toNat ∧ x.toNat < 0x20
  · rw [storedByte_key blk x _ (by omega) key.1 rfl]; simp [hk]
  by_cases data : 0x20 ≤ x.toNat ∧ x.toNat < 0x28
  · rw [storedByte_data blk x _ (by omega) data.1 rfl]; simp [hd]
  by_cases table : 0x40 ≤ x.toNat ∧ x.toNat < 0xA8
  · rw [storedByte_table blk x _ (by omega) table.1 rfl]; simp [hs]
  · exact storedByte_none blk x (by omega)

/-- An aligned word access covers all four lanes, so its RDATA is the register's value (R73). -/
theorem readLanes_word {off : Offset} (ha : aligned .word off = true) (value : Word) :
    readLanes (accessLanes .word off) value = value := by
  have hlane := lane_add_bytes_le ha
  apply word_ext_lanes
  intro k hk
  have hcovered : laneOf off ≤ k ∧ k < laneOf off + Size.word.bytes := by simp only [Size.bytes] at *; omega
  simp [byteLane_readLanes _ _ _ hk, getLsbD_accessLanes _ _ hk, hcovered]

/-- An aligned word read of a register that always answers gives its value. -/
theorem readConstant_word {off : Offset} (ha : aligned .word off = true) (value : Word) (s : State) :
    readConstant .word off value s = .next (respond (.readOkay value) s) := by
  simp [readConstant, guardAligned_of_aligned ha, readLanes_word ha]

theorem exec_rdCmd (s : State) : exec .rdCmd s = .next (respond (.readOkay 0#32) s) :=
  readConstant_word (off := 0x00#8) rfl _ s

theorem exec_rdStatus (s : State) : exec .rdStatus s = .next (respond (.readOkay (statusWord s.block)) s) :=
  readConstant_word (off := 0x04#8) rfl _ s

theorem exec_rdParam_word (s : State) :
    exec (.rdParam .word 0#2) s = .next (respond (.readOkay Config.paramValue) s) :=
  readConstant_word (off := paramOff 0#2) rfl _ s

/-- Settles O15: the marks are clear, and the three word reads answer with STATUS, CMD and PARAM. -/
theorem resetLeavesTheSpecifiedValues : Obligations.ResetLeavesTheSpecifiedValues :=
  ⟨rfl, rfl, storedByte_of_unwritten rfl rfl rfl,
    ⟨_, exec_rdStatus _, rfl, rfl⟩,
    ⟨_, exec_rdCmd _, rfl, rfl⟩,
    ⟨_, exec_rdParam_word _, rfl, rfl⟩⟩

end Sys2Proof.Machine
end

section
/-! PROOFS. Write data on its lanes (30_encoding.md R72). -/

namespace Sys2Proof.Machine

theorem toNat_writeValue (sz : Size) (off : Offset) (wdata : Word) :
    (writeValue sz off wdata).toNat = wdata.toNat / 2 ^ (8 * laneOf off) % 2 ^ (8 * sz.bytes) := by
  have fits : (2 : Nat) ^ (8 * sz.bytes) ≤ 2 ^ 32 := by cases sz <;> decide
  have hlt := (Nat.mod_lt (wdata.toNat / 2 ^ (8 * laneOf off)) (Nat.two_pow_pos (8 * sz.bytes))).trans_le fits
  simpa [writeValue, Nat.shiftRight_eq_div_pow] using hlt

/-- The value written is the bits of WDATA from the access's lowest lane up (R72). -/
theorem getLsbD_writeValue {sz : Size} {i : Nat} (off : Offset) (wdata : Word) (hi : i < 8 * sz.bytes) :
    (writeValue sz off wdata).getLsbD i = wdata.getLsbD (8 * laneOf off + i) := by
  have hword : sz.bytes ≤ 4 := by cases sz <;> decide
  simp [writeValue, hi, show i < 32 by omega]

/-- Byte `m` of the value written is WDATA's lane `(off mod 4) + m` (R72). -/
theorem byteLane_writeValue {sz : Size} {m : Nat} (off : Offset) (wdata : Word) (hm : m < sz.bytes) :
    byteLane (writeValue sz off wdata) m = byteLane wdata (laneOf off + m) := by
  apply BitVec.eq_of_getLsbD_eq
  intro i hi
  rw [getLsbD_byteLane, getLsbD_byteLane, getLsbD_writeValue off wdata (by omega), Nat.mul_add, Nat.add_assoc]

/-- A store takes WDATA on the lanes its access covers and leaves the register's other lanes (R54, R72). -/
theorem byteLane_mergeLanes_accessLanes (sz : Size) (off : Offset) (wdata old : Word) {k : Nat} (hk : k < 4) :
    byteLane (mergeLanes (accessLanes sz off) wdata old) k =
      if CoversLane sz off k then byteLane wdata k else byteLane old k := by
  simp only [byteLane_mergeLanes _ _ _ _ hk, getLsbD_accessLanes _ _ hk, decide_eq_true_eq]

/-- Lane `(off mod 4) + m` of the register gets byte `m` of the value written (R72). -/
theorem byteLane_mergeLanes_eq_writeValue {sz : Size} {off : Offset} {m : Nat} (ha : aligned sz off = true)
    (wdata old : Word) (hm : m < sz.bytes) :
    byteLane (mergeLanes (accessLanes sz off) wdata old) (laneOf off + m) = byteLane (writeValue sz off wdata) m := by
  have hreg := lane_add_bytes_le ha
  rw [byteLane_mergeLanes_accessLanes _ _ _ _ (by omega), if_pos ⟨by omega, by omega⟩, byteLane_writeValue _ _ hm]

/-- The lanes of WDATA an access does not cover are ignored (R72). -/
theorem mergeLanes_accessLanes_congr {sz : Size} {off : Offset} {wdata wdata' : Word} (old : Word)
    (h : ∀ k < 4, CoversLane sz off k → byteLane wdata k = byteLane wdata' k) :
    mergeLanes (accessLanes sz off) wdata old = mergeLanes (accessLanes sz off) wdata' old := by
  apply word_ext_lanes
  intro k hk
  rw [byteLane_mergeLanes_accessLanes _ _ _ _ hk, byteLane_mergeLanes_accessLanes _ _ _ _ hk]
  by_cases hc : CoversLane sz off k
  · rw [if_pos hc, if_pos hc, h k hk hc]
  · rw [if_neg hc, if_neg hc]

/-- An aligned word write starts at lane 0, and so takes all of WDATA (R72). -/
theorem writeValue_word {off : Offset} (ha : aligned .word off = true) (wdata : Word) :
    writeValue .word off wdata = wdata := by
  have hlane : laneOf off = 0 := Nat.le_zero.1 (Nat.le_of_add_le_add_right (lane_add_bytes_le ha))
  apply word_ext_lanes
  intro k hk
  rw [byteLane_writeValue off wdata (sz := .word) hk, hlane, Nat.zero_add]

/-- Settles O26: the value's number and bytes, the store's lanes, and the word case, each by the lemma that says so. -/
theorem writeDataTravelsOnItsLanes : Obligations.WriteDataTravelsOnItsLanes := by
  intro sz off wdata wdata' old ha
  refine ⟨toNat_writeValue sz off wdata, fun _ => byteLane_writeValue off wdata,
    fun _ => byteLane_mergeLanes_eq_writeValue ha wdata old, mergeLanes_accessLanes_congr old, ?_⟩
  rintro rfl
  exact writeValue_word ha wdata

end Sys2Proof.Machine
end

section
/-! PROOFS. Writes while busy (40_bus_access.md R99), the NOP (R105), and the inputs of an operation at acceptance (R112). -/

namespace Sys2Proof.Machine

/-- A write of STATUS is R92's, busy or not (R99). -/
theorem exec_wrStatus (v : Word) (s : State) :
    exec (.wrStatus v) s = .next (respond .writeOkay (onBlock (clearStatus v) s)) := rfl

/-- R99: while busy, the writes of CMD are dropped as commands, those of KEY, DATA and S as writes to storage. -/
theorem exec_of_writesGuarded_of_busy {i : Instr} {s : State} (hb : busy s.block = true)
    (hg : i.writesGuarded = true) (hw : i.wellFormed = true) : exec i s = .next (dropWrite s) := by
  cases i with
  | wrCmd | nop | expand | encode | decode =>
    simp only [exec_wrCmd, exec_nop, exec_expand, exec_encode, exec_decode, issueCommand_busy hb]
  | wrKey | wrData | wrSLow | wrSMid | wrSHigh => exact writeStored_busy hw hb
  | rdCmd | rdStatus | wrStatus | rdParam | rdKey | rdData | rdSLow | rdSMid | rdSHigh => cases hg

/-- Settles O31: the guarded writes are dropped, and a STATUS write does not ask whether the block is busy. -/
theorem writesWhileBusyAreDropped : Obligations.WritesWhileBusyAreDropped := by
  intro i s hb
  refine ⟨exec_of_writesGuarded_of_busy hb, ?_⟩
  rintro v rfl
  exact exec_wrStatus v s

/-- Settles O33: not busy, the NOP answers only; busy, it is one of the writes that R99 drops. -/
theorem nopHasNoEffect : Obligations.NopHasNoEffect :=
  ⟨rfl, fun _ => ⟨issueCommand_nop, fun hb => exec_of_writesGuarded_of_busy hb rfl rfl⟩⟩

/-- U2 is the outcome of an acceptance exactly when not every input byte is written. -/
theorem acceptOperation_fault_iff {op : Operation} {s : State} :
    acceptOperation op s = .fault (.unwrittenInput op) ↔ ¬ inputsReady op s.block = true := by
  cases h : inputsReady op s.block with
  | true => simp [acceptOperation_ready h]
  | false => simp [acceptOperation_not_ready h]

/-- R112: while not busy, an operation's command is the fault U2 exactly when its inputs are not all written. -/
theorem issueCommand_run_fault_iff {op : Operation} {s : State} (hb : busy s.block = false) :
    issueCommand (some (.run op)) s = .fault (.unwrittenInput op) ↔ ¬ inputsReady op s.block = true := by
  rw [issueCommand_run hb, acceptOperation_fault_iff]

/-- Settles O35: each operation faults exactly when its inputs are not ready, and readiness is every input byte written. -/
theorem unwrittenInputsFaultAtAcceptance : Obligations.UnwrittenInputsFaultAtAcceptance := by
  intro s hb
  exact ⟨(issueCommand_run_fault_iff hb).trans (not_congr (inputsReady_expand_iff _)),
    (issueCommand_run_fault_iff hb).trans (not_congr (inputsReady_encode_iff _)),
    (issueCommand_run_fault_iff hb).trans (not_congr (inputsReady_decode_iff _))⟩

end Sys2Proof.Machine
end

section
/-! PROOFS. The Key Schedule Expander as a function (41_key_schedule.md): initialisation (R121) and the cursors of mixing (R123). -/

namespace Sys2Proof.Machine

/-- After the first `k` initialisation micro-steps, the words below `k` are the progression `P + n × Q` (R121). -/
theorem tableWord_initSteps (t : Vector Word 26) {k n : Nat} (hk : k ≤ 26) (hn : n < k) :
    tableWord (initSteps t k) n = 0xb7e15163#32 + BitVec.ofNat 32 n * 0x9e3779b9#32 := by
  induction k generalizing n with
  | zero => omega
  | succ k ih =>
    rw [initSteps, tableWord_initOne _ _ (by omega)]
    split
    next heq =>
      subst heq
      cases n with
      | zero => rfl
      | succ n =>
        have hprev : tableWord (initSteps t (n + 1)) n = _ := ih (by omega) (Nat.lt_succ_self n)
        simp only [initWord, Config.magicQ, Nat.succ_ne_zero, if_false, Nat.add_sub_cancel, hprev]
        rw [BitVec.add_assoc, BitVec.ofNat_add, BitVec.add_mul, BitVec.one_mul]
    next hne => exact ih (by omega) (by omega)

/-- Initialisation leaves the progression in the whole table (R121). -/
theorem tableWord_initTable (t : Vector Word 26) {n : Nat} (hn : n < 26) :
    tableWord (initTable t) n = 0xb7e15163#32 + BitVec.ofNat 32 n * 0x9e3779b9#32 :=
  tableWord_initSteps t (Nat.le_refl 26) hn

/-- The whole old content of S is overwritten (R121). -/
theorem initTable_congr (t u : Vector Word 26) : initTable t = initTable u :=
  table_ext fun _ hn => (tableWord_initTable t hn).trans (tableWord_initTable u hn).symm

/-- EXPAND's result from any table: what S held before the command does not matter (R121, R126). -/
theorem expandKey_eq (t : Vector Word 26) (key : Vector Word 4) :
    expandKey key = (mixSteps (mixStart (initTable t) key) 78).s := by
  rw [expandKey, initTable_congr]

/-- An initialisation micro-step of the engine is one of the function layer's, on S (R121, R127). -/
theorem expandMicro_of_init {blk : Block} (hm : blk.m < 26) :
    (expandMicro blk).m = blk.m + 1 ∧ (expandMicro blk).phase = blk.phase ∧
      (expandMicro blk).s = initOne blk.s blk.m := by
  by_cases h : blk.m + 1 < 26
  · rw [expandMicro_init h]
    exact ⟨rfl, rfl, rfl⟩
  · have h25 : blk.m = 25 := by omega
    rw [expandMicro_lastInit h25, h25]
    exact ⟨rfl, rfl, rfl⟩

/-- Settles O39: each micro-step writes its own word, and by induction over them the table is the progression, from any table. -/
theorem initialisationIsTheProgression : Obligations.InitialisationIsTheProgression := by
  refine ⟨fun blk hp hm => ?_, initTable_congr, fun t n => tableWord_initTable t⟩
  obtain ⟨hnext, hphase, hs⟩ := expandMicro_of_init hm
  rw [engineStep_expand hp]
  refine ⟨hnext, hphase.trans hp, fun n hn => ?_⟩
  rw [hs, tableWord_initOne _ _ hn]
  split
  next heq => subst heq; rfl
  next => rfl

/-- Each mixing step moves both cursors on by one, round their lengths (R123). -/
theorem mixSteps_cursors (s : Vector Word 26) (l : Vector Word 4) (k : Nat) :
    (mixSteps (mixStart s l) k).i.val = k % 26 ∧ (mixSteps (mixStart s l) k).j.val = k % 4 := by
  induction k with
  | zero => exact ⟨rfl, rfl⟩
  | succ k ih =>
    obtain ⟨hi, hj⟩ := ih
    simp only [mixSteps, mixOne, Fin.val_add, hi, hj]
    exact ⟨Nat.mod_add_mod k 26 1, Nat.mod_add_mod k 4 1⟩

/-- Settles O41: the cursors before step `k` by induction on `k`, and `78 mod 26 = 0`, `78 mod 4 = 2`. -/
theorem cursorsGoRoundTheirLengths : Obligations.CursorsGoRoundTheirLengths := by
  intro s l
  obtain ⟨hi, hj⟩ := mixSteps_cursors s l 78
  exact ⟨mixSteps_cursors s l, Fin.ext hi, Fin.ext hj⟩

end Sys2Proof.Machine
end

section
/-! PROOFS. EXPAND on the machine (41_key_schedule.md R126, R127): its 104 micro-steps, one after another, are the function layer's. -/

namespace Sys2Proof.Machine

/-- The last of `n + 1` micro-steps. -/
theorem engineSteps_succ (blk : Block) (n : Nat) : engineSteps blk (n + 1) = engineStep (engineSteps blk n) := by
  induction n generalizing blk with
  | zero => rfl
  | succ n ih => exact ih (engineStep blk)

/-- The block `blk` after `n` initialisation micro-steps, the 26th still to come (R121). -/
def initialising (blk : Block) (n : Nat) : Block := { blk with s := initSteps blk.s n, m := n }

/-- The block `blk` after initialisation and `n` mixing steps, still in its phase (R122). -/
def mixing (blk : Block) (n : Nat) : Block :=
  { withMix (mixSteps (mixStart (initTable blk.s) blk.l) n) blk with m := 26, k := n }

/-- The block `blk` after `n` of EXPAND's micro-steps, completion left out: 26 of initialisation, then mixing (R127). -/
def expandAt (blk : Block) (n : Nat) : Block := if n < 26 then initialising blk n else mixing blk (n - 26)

theorem expandAt_zero {blk : Block} (hm : blk.m = 0) : expandAt blk 0 = blk := by
  cases blk
  cases hm
  rfl

theorem expandAt_phase (blk : Block) (n : Nat) : (expandAt blk n).phase = blk.phase := by
  unfold expandAt
  split <;> rfl

/-- The start of mixing, from the table that initialisation leaves (R120). -/
theorem mixing_of_table {blk : Block} {t : Vector Word 26} (ht : t = initTable blk.s) (n : Nat) :
    { withMix (mixStart t (initialising blk n).l) (initialising blk n) with m := 26, k := 0 } = mixing blk 0 := by
  rw [ht]
  rfl

/-- What a mixing micro-step writes, whichever it is (R122). -/
theorem mixing_succ (blk : Block) (n : Nat) :
    { withMix (mixOne (mixOf (mixing blk n))) (mixing blk n) with k := (mixing blk n).k + 1 } = mixing blk (n + 1) := rfl

section expand
variable {blk : Block} (hp : blk.phase = .expand)
include hp

theorem engineStep_initialising (n : Nat) : engineStep (initialising blk n) = expandMicro (initialising blk n) :=
  engineStep_expand hp

theorem engineStep_mixing (n : Nat) : engineStep (mixing blk n) = expandMicro (mixing blk n) :=
  engineStep_expand hp

/-- An initialisation micro-step before the last (R121). -/
theorem engineStep_initialising_of_lt {n : Nat} (hn : n < 25) :
    engineStep (initialising blk n) = initialising blk (n + 1) := by
  rw [engineStep_initialising hp, expandMicro_init (Nat.succ_lt_succ hn)]
  rfl

/-- The last initialisation micro-step leaves the start of mixing (R120). -/
theorem engineStep_initialising_last : engineStep (initialising blk 25) = mixing blk 0 := by
  rw [engineStep_initialising hp, expandMicro_lastInit rfl]
  exact mixing_of_table rfl 25

/-- A mixing step before the last (R122). -/
theorem engineStep_mixing_of_lt {n : Nat} (hn : n < 77) : engineStep (mixing blk n) = mixing blk (n + 1) := by
  rw [engineStep_mixing hp, expandMicro_mix (Nat.le_refl 26) (Nat.succ_lt_succ hn), mixing_succ]

/-- The last mixing step completes EXPAND (R110). -/
theorem engineStep_mixing_last : engineStep (mixing blk 77) = finish (markTable (mixing blk 78)) := by
  rw [engineStep_mixing hp, expandMicro_lastMix (Nat.le_refl 26) (Nat.lt_irrefl 78), mixing_succ]

/-- Every micro-step of EXPAND but the last. -/
theorem engineStep_expandAt {n : Nat} (hn : n < 103) : engineStep (expandAt blk n) = expandAt blk (n + 1) := by
  rcases Nat.lt_trichotomy n 25 with h | rfl | h
  · rw [expandAt, expandAt, if_pos (by omega), if_pos (by omega), engineStep_initialising_of_lt hp h]
  · exact engineStep_initialising_last hp
  · rw [expandAt, expandAt, if_neg (by omega), if_neg (by omega), engineStep_mixing_of_lt hp (by omega),
      show n - 26 + 1 = n + 1 - 26 by omega]

/-- The first 103 micro-steps of EXPAND, one after another (R127). -/
theorem engineSteps_expandAt (hm : blk.m = 0) {n : Nat} (hn : n ≤ 103) : engineSteps blk n = expandAt blk n := by
  induction n with
  | zero => exact (expandAt_zero hm).symm
  | succ n ih => rw [engineSteps_succ, ih (by omega), engineStep_expandAt hp (by omega)]

/-- The 104th micro-step of EXPAND completes it (R127). -/
theorem engineSteps_expand_completes (hm : blk.m = 0) :
    engineSteps blk 104 = finish (markTable (mixing blk 78)) := by
  rw [engineSteps_succ, engineSteps_expandAt hp hm (Nat.le_refl 103)]
  exact engineStep_mixing_last hp

/-- EXPAND stays in its phase until its last micro-step (R127). -/
theorem engineSteps_expand_phase (hm : blk.m = 0) {n : Nat} (hn : n < 104) : (engineSteps blk n).phase = .expand := by
  rw [engineSteps_expandAt hp hm (Nat.le_of_lt_succ hn), expandAt_phase, hp]

end expand

/-- EXPAND, not busy and with its inputs written, is accepted (R104, R120). -/
theorem exec_expand_accepted {s : State} (hb : busy s.block = false) (hkey : AllWritten s.block 0x10 0x20) :
    exec .expand s = .next (respond .writeOkay (onBlock (accept .expand) s)) := by
  rw [exec_expand, issueCommand_run hb, acceptOperation_ready ((inputsReady_expand_iff _).2 hkey)]

/-- A completed EXPAND leaves every S byte written (R110). -/
theorem allWritten_finish_markTable (blk : Block) : AllWritten (finish (markTable blk)) 0x40 0xA8 :=
  (tableReady_iff _).1 (by simp [tableReady])

/-- Settles O47: the run is the engine's; its 26 + 78 micro-steps are initialisation and mixing of the accepted block, whose Key
Words are KEY's, and the table they start from does not matter. -/
theorem expandComputesTheKeyTable : Obligations.ExpandComputesTheKeyTable := by
  intro s hin hb hkey
  have run := runsTo_engineSteps (respond .writeOkay (onBlock (accept .expand) s)) hin
  refine ⟨_, exec_expand_accepted hb hkey, fun n hn => ⟨_, run n, engineSteps_expand_phase rfl rfl hn⟩, _, run 104, ?_⟩
  have result := engineSteps_expand_completes (blk := accept .expand s.block) rfl rfl
  simp only [respond_block, onBlock_block, result]
  exact ⟨rfl, rfl, (expandKey_eq s.block.s s.block.key).symm, allWritten_finish_markTable _, rfl, rfl, rfl, rfl, rfl, rfl, rfl⟩

end Sys2Proof.Machine
end

section
/-! PROOFS. The DECODE rounds (42_block_cipher.md R145): each is a micro-step, and each undoes the ENCODE round of its number. -/

namespace Sys2Proof.Machine

/-- A right rotation by a word's bits 4:0 is core's, by the word modulo 32 (R12). -/
theorem rotr32_low5 (v w : Word) : rotr32 v (low5 w) = v.rotateRight (w.toNat % 32) := by
  rw [rotr32_eq_rotateRight, low5_eq_mod]

/-- A DECODE micro-step with `r > 0` is round `r`, and changes A, B and `r` only (R145, R151). -/
theorem engineStep_decode_round {blk : Block} (hp : blk.phase = .decode) (hr : blk.r ≠ 0) :
    engineStep blk =
      { blk with
        a := (decodeRound blk.s blk.r (blk.a, blk.b)).1
        b := (decodeRound blk.s blk.r (blk.a, blk.b)).2
        r := blk.r - 1 } := by
  rw [engineStep_decode hp]
  rcases decodeMicro_cases blk with ⟨h0, _⟩ | ⟨_, hround⟩
  · exact absurd h0 hr
  · exact hround

/-- DECODE's round `r` undoes ENCODE's: first B, by the A that ENCODE's B was made with, then A, by the B so restored. -/
@[simp] theorem decodeRound_encodeRound (t : Vector Word 26) (r : Nat) (x : Word × Word) :
    decodeRound t r (encodeRound t r x) = x := by
  have undo (v w k : Word) (n : Nat) : rotr32 (rotl32 (v ^^^ w) n + k - k) n ^^^ w = v := by
    rw [BitVec.add_sub_cancel, rotr32_rotl32, BitVec.xor_assoc, BitVec.xor_self, BitVec.xor_zero]
  simp only [decodeRound, encodeRound, undo]

/-- DECODE's rounds go back through what ENCODE held after its own, from the twelfth to the whitening (R140, R144). -/
theorem decodeAfter_encodeBlock (t : Vector Word 26) (p : Word × Word) {n : Nat} (hn : n ≤ 12) :
    decodeAfter t (encodeBlock t p) n = encodeAfter t p (12 - n) := by
  induction n with
  | zero => rfl
  | succ n ih =>
    have hround : 12 - n = 12 - (n + 1) + 1 := by omega
    rw [decodeAfter, ih (by omega), Config.rounds, hround, encodeAfter, decodeRound_encodeRound]

/-- Settles O44: a micro-step is its round, read in core's rotations and subtractions; and the rounds undo ENCODE's one by one. -/
theorem decodeMicroStepsAreTheRounds : Obligations.DecodeMicroStepsAreTheRounds := by
  refine ⟨fun blk hp hr => ?_, fun t p n => decodeAfter_encodeBlock t p⟩
  rw [engineStep_decode_round hp (by omega)]
  simp only [decodeRound, rotr32_low5, tableWord_of_lt blk.s (show 2 * blk.r < 26 by omega),
    tableWord_of_lt blk.s (show 2 * blk.r + 1 < 26 by omega)]

end Sys2Proof.Machine
end

section
/-! PROOFS. The rows of the BUS format in the header's fields (30_encoding.md R71, R77), and what the decoder accepts. -/

namespace Sys2Proof

@[simp] theorem headerWr_and (h m : Header) : headerWr (h &&& m) = (headerWr h && headerWr m) := BitVec.getLsbD_and

@[simp] theorem headerSz_and (h m : Header) : headerSz (h &&& m) = headerSz h &&& headerSz m :=
  BitVec.extractLsb'_and

@[simp] theorem headerOff_and (h m : Header) : headerOff (h &&& m) = headerOff h &&& headerOff m :=
  BitVec.extractLsb'_and

/-- A header is its three fields (R71). -/
theorem header_ext_iff {h h' : Header} :
    h = h' ↔ headerWr h = headerWr h' ∧ headerSz h = headerSz h' ∧ headerOff h = headerOff h' := by
  constructor
  · rintro rfl
    exact ⟨rfl, rfl, rfl⟩
  · rintro ⟨hwr, hsz, hoff⟩
    apply BitVec.eq_of_getLsbD_eq
    intro i hi
    obtain h8 | ⟨h2, e⟩ | rfl : i < 8 ∨ (i - 8 < 2 ∧ i = 8 + (i - 8)) ∨ i = 10 := by omega
    · simpa [headerOff, h8] using congrArg (·.getLsbD i) hoff
    · rw [e]
      simpa [headerSz, h2] using congrArg (·.getLsbD (i - 8)) hsz
    · exact hwr

/-- The first offset of a row: the bits its mask leaves open are 0 (R77). -/
def BusRow.first (row : BusRow) : Nat := (headerOff row.pattern).toNat

/-- The last offset of a row: the bits its mask leaves open are 1 (R77). -/
def BusRow.last (row : BusRow) : Nat := (headerOff (row.pattern ||| ~~~row.mask)).toNat

theorem BusRow.wr_masked_iff (row : BusRow) (wr : Bool) :
    (wr && headerWr row.mask) = headerWr row.pattern ↔ wr = headerWr row.pattern := by
  cases row <;> revert wr <;> decide

theorem BusRow.sz_masked_iff (row : BusRow) (sz : BitVec 2) :
    sz &&& headerSz row.mask = headerSz row.pattern ↔ (row.first = row.last → sz = 2#2) := by
  cases row <;> revert sz <;> decide

theorem BusRow.off_masked_iff (row : BusRow) (off : Offset) :
    off &&& headerOff row.mask = headerOff row.pattern ↔ row.first ≤ off.toNat ∧ off.toNat ≤ row.last := by
  cases row <;> revert off <;> decide +kernel

/-- A row's mask and match, field by field: its WR, a word access where it has one offset only, and its offsets (R77). -/
theorem BusRow.covers_iff (row : BusRow) (h : Header) :
    row.covers h = true ↔ headerWr h = headerWr row.pattern ∧ (row.first = row.last → headerSz h = 2#2) ∧
      row.first ≤ (headerOff h).toNat ∧ (headerOff h).toNat ≤ row.last := by
  rw [BusRow.covers, beq_iff_eq, header_ext_iff, headerWr_and, headerSz_and, headerOff_and, row.wr_masked_iff,
    row.sz_masked_iff, row.off_masked_iff]

/-- The headers that match a row: a word access to CMD or STATUS, a read of PARAM, any access to KEY, DATA or S (R77). -/
def HasRow (h : Header) : Prop :=
  let off := (headerOff h).toNat
  (headerSz h = 2#2 ∧ (off = 0x00 ∨ off = 0x04)) ∨ (0x08 ≤ off ∧ off ≤ 0x0B ∧ headerWr h = false) ∨
    (0x10 ≤ off ∧ off ≤ 0x27) ∨ (0x40 ≤ off ∧ off ≤ 0xA7)

/-- The rows' ranges of offsets join up to those of the registers. -/
theorem exists_covers_iff (h : Header) : (∃ row ∈ busRows, row.covers h = true) ↔ HasRow h := by
  simp only [BusRow.covers_iff, HasRow]
  generalize headerWr h = wr, headerSz h = sz, (headerOff h).toNat = off
  simp [busRows, BusRow.first, BusRow.last, BusRow.pattern, BusRow.mask, headerWr, headerOff]
  grind

theorem Size.ofCode_eq_none_iff {c : BitVec 2} : Size.ofCode c = none ↔ c = 3#2 := by revert c; decide

theorem Size.ofCode_eq_some_iff {c : BitVec 2} {sz : Size} : Size.ofCode c = some sz ↔ c = sz.code := by
  cases sz <;> revert c <;> decide

theorem Size.code_ne_three (sz : Size) : sz.code ≠ 3#2 := by cases sz <;> decide

theorem Size.eq_word_of_code {sz : Size} (h : sz.code = 2#2) : sz = .word := by
  simpa [Size.ofCode] using (Size.ofCode_eq_some_iff.2 h.symm).symm

/-- SZ names an access of `2 ^ SZ` bytes (R71). -/
theorem Size.bytes_eq_two_pow (sz : Size) : sz.bytes = 2 ^ sz.code.toNat := by cases sz <;> rfl

/-- The access of the instruction read from a header that its row covers is the header's own (R77). -/
theorem BusRow.access_instr {row : BusRow} {sz : Size} {h : Header} (wdata : Word) (hrow : row.covers h = true)
    (hsz : headerSz h = sz.code) : (row.instr sz (headerOff h) wdata).access = some (sz, headerOff h) := by
  obtain ⟨-, hword, hfirst, hlast⟩ := (row.covers_iff h).1 hrow
  generalize headerOff h = off at *
  have offset_eq {x : Offset} (hx : x.toNat = off.toNat) : some (sz, x) = some (sz, off) := by
    rw [BitVec.eq_of_toNat_eq hx]
  cases row
  case rdCmd | wrCmd | rdStatus | wrStatus =>
    cases Size.eq_word_of_code (hsz ▸ hword rfl)
    exact offset_eq (Nat.le_antisymm hfirst hlast)
  all_goals
    simp [BusRow.first, BusRow.last, BusRow.pattern, BusRow.mask, headerOff] at hfirst hlast
    refine offset_eq ?_
    simp
    omega

/-- What the bus decoder accepts is well formed (R55 (a), R77 step 3). -/
theorem decodeBus_wellFormed {h : Header} {wdata : Word} {i : Instr} (hi : decodeBus h wdata = .ok i) :
    i.wellFormed = true := by
  obtain ⟨row, sz, hrow, rfl⟩ := decodeBus_ok_iff.1 hi
  obtain ⟨hcovers, hsz, ha⟩ := headerRow_ok hrow
  rw [Instr.wellFormed, BusRow.access_instr wdata hcovers hsz]
  exact ha

end Sys2Proof
end

section
/-! PROOFS. The bus errors (60_exceptions.md R161): their causes in the decoder, and their effect. -/

namespace Sys2Proof

section
variable {h : Header} {wdata : Word}

/-- The bus errors of R77's steps, in their order: no size, no row, not aligned. -/
theorem decodeBus_error_iff_cases {kind : BusErrorKind} :
    decodeBus h wdata = .error kind ↔
      (headerSz h = 3#2 ∧ .rsvdSize = kind) ∨ (headerSz h ≠ 3#2 ∧ ¬ HasRow h ∧ noRowKind h = kind) ∨
        (headerSz h ≠ 3#2 ∧ (headerOff h).toNat % 2 ^ (headerSz h).toNat ≠ 0 ∧ HasRow h ∧ .misaligned = kind) := by
  rw [← exists_covers_iff, decodeBus]
  cases hsz : Size.ofCode (headerSz h) with
  | none => simp [Size.ofCode_eq_none_iff.1 hsz]
  | some sz =>
    have hcode : headerSz h = sz.code := Size.ofCode_eq_some_iff.1 hsz
    have hne : headerSz h ≠ 3#2 := hcode ▸ sz.code_ne_three
    cases hrow : busRows.find? (fun row => row.covers h) with
    | none =>
      have hex : ¬ ∃ row ∈ busRows, row.covers h = true := by simpa using hrow
      simp [hne, -not_exists, hex]
    | some row =>
      have hex : ∃ row ∈ busRows, row.covers h = true := List.find?_isSome.1 (hrow ▸ rfl)
      have ha : aligned sz (headerOff h) = true ↔ (headerOff h).toNat % 2 ^ (headerSz h).toNat = 0 := by
        rw [aligned, beq_iff_eq, hcode, sz.bytes_eq_two_pow]
      by_cases hoff : (headerOff h).toNat % 2 ^ (headerSz h).toNat = 0 <;> simp [hne, hex, ha, hoff]

theorem mapped_iff {off : Offset} :
    mapped off = true ↔
      off.toNat ≤ 0x0B ∨ (0x10 ≤ off.toNat ∧ off.toNat ≤ 0x27) ∨ (0x40 ≤ off.toNat ∧ off.toNat ≤ 0xA7) := by
  simp [mapped, or_assoc]

theorem inParam_iff {off : Offset} : inParam off = true ↔ 0x08 ≤ off.toNat ∧ off.toNat ≤ 0x0B := by simp [inParam]

theorem mapped_of_hasRow (hr : HasRow h) : mapped (headerOff h) = true := by
  rw [mapped_iff]
  unfold HasRow at hr
  omega

/-! Without a row: the offset belongs to no register, or to PARAM, or to another one (R77 step 2). -/

theorem noRowKind_eq_unmapped_iff : noRowKind h = .unmapped ↔ mapped (headerOff h) = false := by
  simp only [noRowKind]
  split_ifs <;> simp_all

theorem noRowKind_eq_roWrite_iff :
    noRowKind h = .roWrite ↔ 0x08 ≤ (headerOff h).toNat ∧ (headerOff h).toNat ≤ 0x0B := by
  simp only [noRowKind, mapped_iff, inParam_iff]
  split_ifs <;> simp <;> omega

theorem noRowKind_eq_badSize_iff :
    noRowKind h = .badSize ↔ (headerOff h).toNat ≤ 0x07 ∨
      (0x10 ≤ (headerOff h).toNat ∧ (headerOff h).toNat ≤ 0x27) ∨
      (0x40 ≤ (headerOff h).toNat ∧ (headerOff h).toNat ≤ 0xA7) := by
  simp only [noRowKind, mapped_iff, inParam_iff]
  split_ifs <;> simp <;> omega

theorem noRowKind_ne : noRowKind h ≠ .rsvdSize ∧ noRowKind h ≠ .misaligned := by
  unfold noRowKind
  split_ifs <;> simp

theorem decodeBus_rsvdSize_iff : decodeBus h wdata = .error .rsvdSize ↔ headerSz h = 3#2 := by
  simp [decodeBus_error_iff_cases, noRowKind_ne]

theorem decodeBus_unmapped_iff :
    decodeBus h wdata = .error .unmapped ↔ headerSz h ≠ 3#2 ∧ mapped (headerOff h) = false := by
  have norow (hm : mapped (headerOff h) = false) : ¬ HasRow h := fun hr => by simp [mapped_of_hasRow hr] at hm
  simpa [decodeBus_error_iff_cases, noRowKind_eq_unmapped_iff] using fun _ => norow

theorem decodeBus_badSize_iff :
    decodeBus h wdata = .error .badSize ↔ headerSz h ≠ 3#2 ∧ (headerOff h).toNat ≤ 0x07 ∧
      ¬ (headerSz h = 2#2 ∧ ((headerOff h).toNat = 0x00 ∨ (headerOff h).toNat = 0x04)) := by
  simp only [decodeBus_error_iff_cases, noRowKind_eq_badSize_iff, HasRow, reduceCtorEq, and_false, or_false, false_or]
  grind

theorem decodeBus_roWrite_iff :
    decodeBus h wdata = .error .roWrite ↔ headerSz h ≠ 3#2 ∧ 0x08 ≤ (headerOff h).toNat ∧
      (headerOff h).toNat ≤ 0x0B ∧ headerWr h = true := by
  simp only [decodeBus_error_iff_cases, noRowKind_eq_roWrite_iff, HasRow, reduceCtorEq, and_false, or_false, false_or]
  grind

theorem decodeBus_misaligned_iff :
    decodeBus h wdata = .error .misaligned ↔ headerSz h ≠ 3#2 ∧ (headerOff h).toNat % 2 ^ (headerSz h).toNat ≠ 0 ∧
      HasRow h := by
  simp [decodeBus_error_iff_cases, noRowKind_ne]

end

namespace Machine

/-- The step on a transaction that is a bus error takes it off and answers ERROR (R161). -/
theorem step_bus_error {s : State} {h : Header} {wdata : Word} {rest : List Input} {kind : BusErrorKind}
    (hin : s.inputs = .bus h wdata :: rest) (hk : decodeBus h wdata = .error kind) :
    step s = .next (raiseBusError (headerOff h) (Size.ofCode (headerSz h)) kind { s with inputs := rest }) := by
  simp [step, hin, hk]

/-- Strobes that are no aligned access's lanes have no size (R71). -/
theorem strobeSize_eq_three {strobes : Lanes}
    (hs : ∀ (sz : Size) (off : Offset), aligned sz off = true → strobes ≠ accessLanes sz off) :
    strobeSize strobes = 3#2 := by
  have byte : ¬ (strobes = 0b0001#4 ∨ strobes = 0b0010#4 ∨ strobes = 0b0100#4 ∨ strobes = 0b1000#4) := by
    simpa using ⟨hs .byte 0#8 rfl, hs .byte 1#8 rfl, hs .byte 2#8 rfl, hs .byte 3#8 rfl⟩
  have half : ¬ (strobes = 0b0011#4 ∨ strobes = 0b1100#4) := by simpa using ⟨hs .half 0#8 rfl, hs .half 2#8 rfl⟩
  have word : strobes ≠ 0b1111#4 := hs .word 0#8 rfl
  rw [strobeSize, if_neg byte, if_neg half, if_neg word]

theorem headerSz_mkHeader_three (wr : Bool) (off : Offset) : headerSz (mkHeader wr 3#2 off) = 3#2 := by
  revert wr off; decide

/-- Settles O8: each cause is the decoder's lemma for its kind; CMD and STATUS, whose rows take word accesses at 0x00 and 0x04
only, are never misaligned. -/
theorem busErrorsHaveTheirCausesAndNoEffect : Obligations.BusErrorsHaveTheirCausesAndNoEffect := by
  refine ⟨⟨rfl, rfl, rfl, rfl, rfl⟩, fun h wdata => ⟨decodeBus_rsvdSize_iff, ?_, ?_, decodeBus_roWrite_iff, ?_⟩, ?_,
    fun s h wdata rest kind => step_bus_error, fun _ _ _ => rfl⟩
  · rw [decodeBus_unmapped_iff, ← Bool.not_eq_true, mapped_iff]
    refine and_congr_right fun _ => ?_
    omega
  · rw [decodeBus_badSize_iff, not_and_or, not_or]
  · rw [decodeBus_misaligned_iff]
    refine and_congr_right fun _ => and_congr_right fun hmis => or_iff_right ?_
    rintro ⟨hsz, hoff | hoff⟩ <;> simp [hsz, hoff] at hmis
  · intro strobes hs addr wdata
    refine ⟨_, rfl, decodeBus_rsvdSize_iff.2 ?_⟩
    rw [strobeSize_eq_three hs, headerSz_mkHeader_three]

end Machine

end Sys2Proof
end

section
/-! PROOFS. The priority of a transaction's outcomes (60_exceptions.md R167). -/

namespace Sys2Proof.Machine

/-- The step on a transaction that decodes takes it off and runs its instruction (R90). -/
theorem step_bus_ok {s : State} {h : Header} {wdata : Word} {rest : List Input} {i : Instr}
    (hin : s.inputs = .bus h wdata :: rest) (hi : decodeBus h wdata = .ok i) :
    step s = exec i { s with inputs := rest } := by
  simp [step, hin, hi]

/-- Settles O14: the first five outcomes are bus errors, each by its cause; what decodes is well formed, so that while busy R99
drops it before its command word is read. -/
theorem outcomesFollowTheirPriority : Obligations.OutcomesFollowTheirPriority := by
  intro s h wdata rest hin
  refine ⟨fun hsz => step_bus_error hin (decodeBus_rsvdSize_iff.2 hsz),
    fun hsz hm => step_bus_error hin (decodeBus_unmapped_iff.2 ⟨hsz, hm⟩),
    fun hsz hoff hform => step_bus_error hin (decodeBus_badSize_iff.2 ⟨hsz, hoff, hform⟩),
    fun hsz hlo hhi hwr => step_bus_error hin (decodeBus_roWrite_iff.2 ⟨hsz, hlo, hhi, hwr⟩),
    step_bus_error hin, fun i hi hg hb => ?_, ?_, fun i => step_bus_ok hin⟩
  · rw [step_bus_ok hin hi]
    exact exec_of_writesGuarded_of_busy hb hg (decodeBus_wellFormed hi)
  · rintro rfl hb hc
    rw [step_bus_ok hin (i := .wrCmd wdata) rfl, exec_wrCmd, hc]
    exact issueCommand_illegal hb

end Sys2Proof.Machine
end

section
/-! PROOFS. The round trips of the encoding (30_encoding.md R70, R71, R75, R77): a word determines its row and its instruction, and an
instruction its word. -/

namespace Sys2Proof

/-- Two rows with a header in common agree on the bits that both masks fix, which no two different rows of the table do (R77). -/
theorem BusRow.eq_of_covers {h : Header} {x y : BusRow} (hx : x.covers h = true) (hy : y.covers h = true) : x = y := by
  have apart : ∀ x y : BusRow, x.pattern &&& y.mask = y.pattern &&& x.mask → x = y := by
    intro x y
    cases x <;> cases y <;> decide
  rw [BusRow.covers, beq_iff_eq] at hx hy
  refine apart x y ?_
  rw [← hx, ← hy, BitVec.and_assoc, BitVec.and_assoc, BitVec.and_comm x.mask]

theorem mem_busRows (row : BusRow) : row ∈ busRows := by cases row <;> decide

/-- What a row decodes to is a read exactly when the row's WR is 0. -/
theorem BusRow.isRead_instr (row : BusRow) (sz : Size) (off : Offset) (wdata : Word) :
    (row.instr sz off wdata).isRead = !headerWr row.pattern := by cases row <;> rfl

/-- Settles O7: a header that two rows matched would put their fixed bits at odds; and a row fixes WR as its direction. -/
theorem noHeaderMatchesTwoRows : Obligations.NoHeaderMatchesTwoRows := by
  refine ⟨fun _ _ _ => BusRow.eq_of_covers, mem_busRows, fun h wdata i hi => ?_⟩
  obtain ⟨row, sz, hrow, rfl⟩ := decodeBus_ok_iff.1 hi
  rw [row.isRead_instr, ((row.covers_iff h).1 (headerRow_ok hrow).1).1, Bool.not_eq_true']

/-- The decoder finds the one row that matches a header (R77). -/
theorem decodeBus_of_covers {h : Header} {row : BusRow} {sz : Size} (wdata : Word) (hrow : row.covers h = true)
    (hsz : headerSz h = sz.code) (ha : aligned sz (headerOff h) = true) :
    decodeBus h wdata = .ok (row.instr sz (headerOff h) wdata) := by
  have found : busRows.find? (fun row => row.covers h) = some row := by
    cases hfind : busRows.find? (fun row => row.covers h) with
    | none => exact absurd hrow (List.find?_eq_none.1 hfind row (mem_busRows row))
    | some row' =>
      have hrow' : row'.covers h = true := List.find?_some (p := fun row : BusRow => row.covers h) hfind
      rw [BusRow.eq_of_covers hrow' hrow]
  simp only [decodeBus, Size.ofCode_eq_some_iff.2 hsz, found, ha, if_true]

/-- WDATA of an instruction's bus word; a read's stands as 0 (R71). -/
def Instr.wdata : Instr → Word
  | .wrCmd wdata | .wrStatus wdata | .wrKey _ _ wdata | .wrData _ _ wdata | .wrSLow _ _ wdata | .wrSMid _ _ wdata
  | .wrSHigh _ _ wdata => wdata
  | .rdCmd | .rdStatus | .rdParam _ _ | .rdKey _ _ | .rdData _ _ | .rdSLow _ _ | .rdSMid _ _ | .rdSHigh _ _
  | .nop | .expand | .encode | .decode => 0#32

/-- What a row decodes to carries the WDATA of a write, and 0 for a read. -/
theorem BusRow.wdata_instr (row : BusRow) (sz : Size) (off : Offset) (wdata : Word) :
    (row.instr sz off wdata).wdata = if headerWr row.pattern = true then wdata else 0#32 := by cases row <;> rfl

/-- The bus word of an instruction that makes an access: its direction, its access and its WDATA (R71). -/
theorem encode_of_access {i : Instr} {sz : Size} {off : Offset} (h : i.access = some (sz, off)) :
    encode i = .bus (mkHeader (!i.isRead) sz.code off) i.wdata := by
  cases i <;> cases h <;> rfl

/-- The instructions that make no access are the commands (R74). -/
theorem exists_command_of_access {i : Instr} (h : i.access = none) : ∃ cmd : Command, i = cmd.instr := by
  cases i
  case nop => exact ⟨.nop, rfl⟩
  case expand => exact ⟨.run .expand, rfl⟩
  case encode => exact ⟨.run .encode, rfl⟩
  case decode => exact ⟨.run .decode, rfl⟩
  all_goals cases h

/-- A command makes no access, so it is well formed (R74). -/
theorem wellFormed_command (cmd : Command) : cmd.instr.wellFormed = true :=
  match cmd with
  | .nop => rfl
  | .run .expand => rfl
  | .run .encode => rfl
  | .run .decode => rfl

/-- The word of a command is the table's (R75). -/
theorem encode_command (cmd : Command) : encode cmd.instr = .cmd cmd.word :=
  match cmd with
  | .nop => rfl
  | .run .expand => rfl
  | .run .encode => rfl
  | .run .decode => rfl

/-- The row of an instruction; a command has none (R77). -/
def Instr.row : Instr → Option BusRow
  | .rdCmd => some .rdCmd
  | .wrCmd _ => some .wrCmd
  | .rdStatus => some .rdStatus
  | .wrStatus _ => some .wrStatus
  | .rdParam _ _ => some .rdParam
  | .rdKey _ _ => some .rdKey
  | .wrKey _ _ _ => some .wrKey
  | .rdData _ _ => some .rdData
  | .wrData _ _ _ => some .wrData
  | .rdSLow _ _ => some .rdSLow
  | .rdSMid _ _ => some .rdSMid
  | .rdSHigh _ _ => some .rdSHigh
  | .wrSLow _ _ _ => some .wrSLow
  | .wrSMid _ _ _ => some .wrSMid
  | .wrSHigh _ _ _ => some .wrSHigh
  | .nop | .expand | .encode | .decode => none

section row
variable {i : Instr} {row : BusRow} {sz : Size} {off : Offset} (hrow : i.row = some row) (hacc : i.access = some (sz, off))
include hrow hacc

/-- An instruction's row matches its header (R77). -/
theorem covers_of_row : row.covers (mkHeader (headerWr row.pattern) sz.code off) = true := by
  cases i <;> cases hrow <;> cases hacc
  case rdCmd | wrCmd | rdStatus | wrStatus => decide
  case rdParam o | rdKey o | wrKey o _ | rdData o | wrData o _ | rdSLow o | wrSLow o _ | rdSMid o | wrSMid o _ | rdSHigh o
  | wrSHigh o _ => cases sz <;> revert o <;> decide

/-- An instruction's row reads it back from its size, its offset and its WDATA: the offset bits that the mask leaves open are its
operand (R77). -/
theorem instr_of_row : row.instr sz off i.wdata = i := by
  have operand {m n : Nat} {base : BitVec m} {o : BitVec n} : (base ++ o).extractLsb' 0 n = o :=
    BitVec.extractLsb'_append_eq_right
  cases i <;> cases hrow <;> cases hacc
  case rdCmd | wrCmd | rdStatus | wrStatus => rfl
  case rdParam | rdKey | rdData | rdSLow | rdSMid | rdSHigh => exact congrArg _ operand
  case wrKey _ w => exact congrArg (Instr.wrKey sz · w) operand
  case wrData _ w => exact congrArg (Instr.wrData sz · w) operand
  case wrSLow _ w => exact congrArg (Instr.wrSLow sz · w) operand
  case wrSMid _ w => exact congrArg (Instr.wrSMid sz · w) operand
  case wrSHigh _ w => exact congrArg (Instr.wrSHigh sz · w) operand

end row

/-- An instruction that makes an access has a row (R77). -/
theorem exists_row_of_access {i : Instr} {sz : Size} {off : Offset} (h : i.access = some (sz, off)) :
    ∃ row, i.row = some row := by
  cases i with
  | nop | expand | encode | decode => cases h
  | _ => exact ⟨_, rfl⟩

/-- Settles O5: an access's header matches its row, and that row reads back its size, its offset and its WDATA; a command's word is
the table's. -/
theorem decodeOfEncodeIsTheInstruction : Obligations.DecodeOfEncodeIsTheInstruction := by
  intro i hi
  cases hacc : i.access with
  | none =>
    obtain ⟨cmd, rfl⟩ := exists_command_of_access hacc
    rw [encode_command, decode, decodeCommand_some_iff.2 rfl]
  | some access =>
    obtain ⟨sz, off⟩ := access
    obtain ⟨row, hrow⟩ := exists_row_of_access hacc
    have hinstr := instr_of_row hrow hacc
    have hwr : (!i.isRead) = headerWr row.pattern := by rw [← hinstr, row.isRead_instr, Bool.not_not]
    obtain ⟨hsz, hoff, -⟩ := Laws.EncodedFields.header_fields (headerWr row.pattern) sz off
    have ha : aligned sz off = true := by simpa only [Instr.wellFormed, hacc] using hi
    rw [encode_of_access hacc, hwr, decode, decodeBus_of_covers _ (covers_of_row hrow hacc) hsz (hoff.symm ▸ ha),
      hoff, hinstr]

/-- Settles O6: the header of an accepted bus word is its row's WR, its size and its offset, of which the instruction's own header is
made; an accepted command word is the word of its command. -/
theorem encodeOfDecodeIsTheWord : Obligations.EncodeOfDecodeIsTheWord := by
  intro w i hi
  cases w with
  | bus h wdata =>
    have hdec : decodeBus h wdata = .ok i := by
      simp only [decode] at hi
      split at hi <;> cases hi
      assumption
    refine ⟨decodeBus_wellFormed hdec, ?_⟩
    obtain ⟨row, sz, hrow, rfl⟩ := decodeBus_ok_iff.1 hdec
    obtain ⟨hcovers, hsz, -⟩ := headerRow_ok hrow
    have hwr : headerWr h = headerWr row.pattern := ((row.covers_iff h).1 hcovers).1
    have hheader : mkHeader (headerWr row.pattern) sz.code (headerOff h) = h := by
      obtain ⟨hsz', hoff', hwr'⟩ := Laws.EncodedFields.header_fields (headerWr row.pattern) sz (headerOff h)
      exact header_ext_iff.2 ⟨hwr'.trans hwr.symm, hsz'.trans hsz.symm, hoff'⟩
    simp only
    rw [encode_of_access (row.access_instr wdata hcovers hsz), row.isRead_instr, Bool.not_not, hheader, row.wdata_instr,
      hwr]
  | cmd c =>
    cases hc : decodeCommand c with
    | none => simp [decode, hc] at hi
    | some cmd =>
      simp only [decode, hc, Except.ok.injEq] at hi
      subst hi
      rw [decodeCommand_some_iff.1 hc]
      exact ⟨wellFormed_command cmd, encode_command cmd⟩

end Sys2Proof
end

section
/-! PROOFS. ENCODE and DECODE on the machine (42_block_cipher.md R140 to R147, R151): their 13 micro-steps, one after another, are the
function layer's, and each operation undoes the other. -/

namespace Sys2Proof.Machine

/-! ### The function layer -/

@[simp] theorem unwhiten_whiten (t : Vector Word 26) (p : Word × Word) : unwhiten t (whiten t p) = p := by
  simp only [unwhiten, whiten, BitVec.add_sub_cancel]

@[simp] theorem whiten_unwhiten (t : Vector Word 26) (p : Word × Word) : whiten t (unwhiten t p) = p := by
  simp only [unwhiten, whiten, BitVec.sub_add_cancel]

/-- ENCODE's round `r` undoes DECODE's: first A, by the B that DECODE's A was made with, then B, by the A so restored. -/
@[simp] theorem encodeRound_decodeRound (t : Vector Word 26) (r : Nat) (x : Word × Word) :
    encodeRound t r (decodeRound t r x) = x := by
  have undo (v w k : Word) (n : Nat) : rotl32 (rotr32 (v - k) n ^^^ w ^^^ w) n + k = v := by
    rw [BitVec.xor_assoc, BitVec.xor_self, BitVec.xor_zero, rotl32_rotr32, BitVec.sub_add_cancel]
  simp only [decodeRound, encodeRound, undo]

/-- ENCODE's rounds go back through what DECODE held, from before its un-whitening to its start (R140, R144). -/
theorem encodeAfter_decodeBlock (t : Vector Word 26) (c : Word × Word) {n : Nat} (hn : n ≤ 12) :
    encodeAfter t (decodeBlock t c) n = decodeAfter t c (12 - n) := by
  induction n with
  | zero => exact whiten_unwhiten t _
  | succ n ih =>
    have hround : 12 - n = 12 - (n + 1) + 1 := by omega
    rw [encodeAfter, ih (by omega), hround, decodeAfter, Config.rounds, show 12 - (12 - (n + 1)) = n + 1 by omega,
      encodeRound_decodeRound]

theorem decodeBlock_encodeBlock (t : Vector Word 26) (p : Word × Word) : decodeBlock t (encodeBlock t p) = p := by
  rw [decodeBlock, decodeAfter_encodeBlock t p (Nat.le_refl 12)]
  exact unwhiten_whiten t p

theorem encodeBlock_decodeBlock (t : Vector Word 26) (c : Word × Word) : encodeBlock t (decodeBlock t c) = c :=
  encodeAfter_decodeBlock t c (Nat.le_refl 12)

/-- Settles O50: round by round, each of the two goes back through what the other held. -/
theorem decodeInvertsEncode : Obligations.DecodeInvertsEncode :=
  fun t p => ⟨decodeBlock_encodeBlock t p, encodeBlock_decodeBlock t p⟩

/-! ### The machine -/

/-- The block `blk` after the whitening and `n` rounds of ENCODE, completion left out (R151). -/
def encoding (blk : Block) (n : Nat) : Block :=
  { blk with
    a := (encodeAfter blk.s (dataPair blk) n).1
    b := (encodeAfter blk.s (dataPair blk) n).2
    r := n + 1 }

/-- The block `blk` after `n` rounds of DECODE, completion left out (R151). -/
def decoding (blk : Block) (n : Nat) : Block :=
  { blk with
    a := (decodeAfter blk.s (dataPair blk) n).1
    b := (decodeAfter blk.s (dataPair blk) n).2
    r := 12 - n }

/-- The block `blk` after the whole of ENCODE (R143). -/
def encoded (blk : Block) : Block := finish (putData (encodeBlock blk.s (dataPair blk)) (encoding blk 12))

/-- The block `blk` after the whole of DECODE (R146). -/
def decoded (blk : Block) : Block := finish (putData (decodeBlock blk.s (dataPair blk)) (decoding blk 12))

/-! The micro-steps of ENCODE and DECODE, each by its condition (R151). -/

section equations
variable {blk : Block}

theorem encodeMicro_whitening (hr : blk.r = 0) : encodeMicro blk =
    { blk with a := (whiten blk.s (dataPair blk)).1, b := (whiten blk.s (dataPair blk)).2, r := 1 } := if_pos hr

theorem encodeMicro_round (hr : blk.r ≠ 0) (hlt : blk.r < 12) : encodeMicro blk =
    { blk with
      a := (encodeRound blk.s blk.r (blk.a, blk.b)).1
      b := (encodeRound blk.s blk.r (blk.a, blk.b)).2
      r := blk.r + 1 } := (if_neg hr).trans (if_pos hlt)

theorem encodeMicro_last (hr : 12 ≤ blk.r) : encodeMicro blk =
    finish (putData (encodeRound blk.s blk.r (blk.a, blk.b))
      { blk with
        a := (encodeRound blk.s blk.r (blk.a, blk.b)).1
        b := (encodeRound blk.s blk.r (blk.a, blk.b)).2
        r := blk.r + 1 }) := (if_neg (by omega)).trans (if_neg (Nat.not_lt.2 hr))

theorem decodeMicro_unwhitening (hr : blk.r = 0) :
    decodeMicro blk = finish (putData (unwhiten blk.s (blk.a, blk.b)) blk) := if_pos hr

theorem decodeMicro_round (hr : blk.r ≠ 0) : decodeMicro blk =
    { blk with
      a := (decodeRound blk.s blk.r (blk.a, blk.b)).1
      b := (decodeRound blk.s blk.r (blk.a, blk.b)).2
      r := blk.r - 1 } := if_neg hr

end equations

section encode
variable {blk : Block} (hp : blk.phase = .encode)
include hp

/-- The first micro-step of ENCODE is the whitening (R141). -/
theorem engineStep_whitening (hr : blk.r = 0) : engineStep blk = encoding blk 0 :=
  (engineStep_encode hp).trans (encodeMicro_whitening hr)

/-- Every other micro-step of ENCODE but the last is its round (R142). -/
theorem engineStep_encoding {n : Nat} (hn : n < 11) : engineStep (encoding blk n) = encoding blk (n + 1) :=
  (engineStep_encode (blk := encoding blk n) hp).trans (encodeMicro_round (Nat.succ_ne_zero n) (Nat.succ_lt_succ hn))

/-- The last micro-step of ENCODE is its twelfth round, which completes it (R143). -/
theorem engineStep_encoding_last : engineStep (encoding blk 11) = encoded blk :=
  (engineStep_encode (blk := encoding blk 11) hp).trans (encodeMicro_last (Nat.le_refl 12))

/-- The first 12 micro-steps of ENCODE, one after another (R151). -/
theorem engineSteps_encoding (hr : blk.r = 0) {n : Nat} (hn : n ≤ 11) : engineSteps blk (n + 1) = encoding blk n := by
  induction n with
  | zero => exact engineStep_whitening hp hr
  | succ n ih => rw [engineSteps_succ, ih (by omega), engineStep_encoding hp (by omega)]

/-- The 13th micro-step of ENCODE completes it (R151). -/
theorem engineSteps_encoded (hr : blk.r = 0) : engineSteps blk 13 = encoded blk := by
  rw [engineSteps_succ, engineSteps_encoding hp hr (Nat.le_refl 11), engineStep_encoding_last hp]

/-- ENCODE stays in its phase until its last micro-step (R151). -/
theorem engineSteps_encode_phase (hr : blk.r = 0) {n : Nat} (hn : n < 13) : (engineSteps blk n).phase = .encode := by
  cases n with
  | zero => exact hp
  | succ n => rw [engineSteps_encoding hp hr (by omega)]; exact hp

end encode

section decode
variable {blk : Block} (hp : blk.phase = .decode)
include hp

/-- Every micro-step of DECODE but the last is a round (R145). -/
theorem engineStep_decoding {n : Nat} (hn : n < 12) : engineStep (decoding blk n) = decoding blk (n + 1) :=
  engineStep_decode_round (blk := decoding blk n) hp (Nat.sub_ne_zero_of_lt hn)

/-- The last micro-step of DECODE is the un-whitening, which completes it (R146). -/
theorem engineStep_decoding_last : engineStep (decoding blk 12) = decoded blk :=
  (engineStep_decode (blk := decoding blk 12) hp).trans (decodeMicro_unwhitening rfl)

/-- The first 12 micro-steps of DECODE, one after another, from a block that holds DATA in A and B (R144, R151). -/
theorem engineSteps_decoding (h0 : decoding blk 0 = blk) {n : Nat} (hn : n ≤ 12) : engineSteps blk n = decoding blk n := by
  induction n with
  | zero => exact h0.symm
  | succ n ih => rw [engineSteps_succ, ih (by omega), engineStep_decoding hp (by omega)]

/-- The 13th micro-step of DECODE completes it (R151). -/
theorem engineSteps_decoded (h0 : decoding blk 0 = blk) : engineSteps blk 13 = decoded blk := by
  rw [engineSteps_succ, engineSteps_decoding hp h0 (Nat.le_refl 12), engineStep_decoding_last hp]

/-- DECODE stays in its phase until its last micro-step (R151). -/
theorem engineSteps_decode_phase (h0 : decoding blk 0 = blk) {n : Nat} (hn : n < 13) :
    (engineSteps blk n).phase = .decode := by
  rw [engineSteps_decoding hp h0 (Nat.le_of_lt_succ hn)]
  exact hp

end decode

/-- An accepted DECODE holds DATA in A and B, with all 12 rounds to come (R144). -/
theorem decoding_accept (blk : Block) : decoding (accept .decode blk) 0 = accept .decode blk := rfl

section run
variable {s : State} (hb : busy s.block = false) (hdata : AllWritten s.block 0x20 0x28) (htable : AllWritten s.block 0x40 0xA8)
include hb hdata htable

/-- ENCODE, not busy and with its inputs written, is accepted (R104, R140). -/
theorem exec_encode_accepted : exec .encode s = .next (respond .writeOkay (onBlock (accept .encode) s)) := by
  rw [exec_encode, issueCommand_run hb, acceptOperation_ready ((inputsReady_encode_iff _).2 ⟨hdata, htable⟩)]

/-- DECODE, not busy and with its inputs written, is accepted (R104, R144). -/
theorem exec_decode_accepted : exec .decode s = .next (respond .writeOkay (onBlock (accept .decode) s)) := by
  rw [exec_decode, issueCommand_run hb, acceptOperation_ready ((inputsReady_decode_iff _).2 ⟨hdata, htable⟩)]

end run

/-- A completed ENCODE or DECODE leaves every DATA byte written (R110). -/
theorem allWritten_finish_putData (x : Word × Word) (blk : Block) : AllWritten (finish (putData x blk)) 0x20 0x28 :=
  (dataReady_iff _).1 (by simp [dataReady])

/-- With no input left, an accepted ENCODE runs to its completion in 13 steps. -/
theorem runsTo_encoded {s : State} (hin : s.inputs = []) :
    runsTo 13 (respond .writeOkay (onBlock (accept .encode) s))
      { respond .writeOkay s with block := encoded (accept .encode s.block) } := by
  have run := runsTo_engineSteps (respond .writeOkay (onBlock (accept .encode) s)) hin 13
  rwa [respond_block, onBlock_block, engineSteps_encoded rfl rfl] at run

/-- With no input left, an accepted DECODE runs to its completion in 13 steps. -/
theorem runsTo_decoded {s : State} (hin : s.inputs = []) :
    runsTo 13 (respond .writeOkay (onBlock (accept .decode) s))
      { respond .writeOkay s with block := decoded (accept .decode s.block) } := by
  have run := runsTo_engineSteps (respond .writeOkay (onBlock (accept .decode) s)) hin 13
  rwa [respond_block, onBlock_block, engineSteps_decoded rfl (decoding_accept _)] at run

/-- Settles O48: the run is the engine's; its 13 micro-steps are the whitening and the twelve rounds of the accepted block, whose DATA
and S are the machine's. -/
theorem encodeComputesTheCiphertext : Obligations.EncodeComputesTheCiphertext := by
  intro s hin hb hdata htable
  have run := runsTo_engineSteps (respond .writeOkay (onBlock (accept .encode) s)) hin
  exact ⟨_, exec_encode_accepted hb hdata htable, fun n hn => ⟨_, run n, engineSteps_encode_phase rfl rfl hn⟩,
    _, runsTo_encoded hin, rfl, rfl, rfl, allWritten_finish_putData _ _, rfl, rfl, rfl, rfl, rfl, rfl⟩

/-- Settles O49: the run is the engine's; its 13 micro-steps are the twelve rounds and the un-whitening of the accepted block, whose
A and B start as DATA. -/
theorem decodeComputesThePlaintext : Obligations.DecodeComputesThePlaintext := by
  intro s hin hb hdata htable
  have run := runsTo_engineSteps (respond .writeOkay (onBlock (accept .decode) s)) hin
  exact ⟨_, exec_decode_accepted hb hdata htable, fun n hn => ⟨_, run n, engineSteps_decode_phase rfl (decoding_accept _) hn⟩,
    _, runsTo_decoded hin, rfl, rfl, rfl, allWritten_finish_putData _ _, rfl, rfl, rfl, rfl, rfl, rfl⟩

/-- DATA is its pair of words. -/
theorem data_eq_of_dataPair {x y : Block} (h : dataPair x = dataPair y) : x.data = y.data := by
  obtain ⟨h0, h1⟩ := Prod.mk.inj h
  apply Vector.ext
  intro i hi
  match i, hi with
  | 0, _ => exact h0
  | 1, _ => exact h1

/-- Settles O51: the second operation finds its inputs written, takes the first one's result, and undoes it. -/
theorem decodeAfterEncodeRestoresData : Obligations.DecodeAfterEncodeRestoresData := by
  intro s hin hb hdata htable
  have marked : tableReady s.block = true := (tableReady_iff _).2 htable
  constructor
  · exact ⟨_, _, _, _, exec_encode_accepted hb hdata htable, runsTo_encoded hin,
      exec_decode_accepted rfl (allWritten_finish_putData _ _) ((tableReady_iff _).1 marked), runsTo_decoded hin, rfl,
      data_eq_of_dataPair (decodeBlock_encodeBlock s.block.s (dataPair s.block)), rfl⟩
  · exact ⟨_, _, _, _, exec_decode_accepted hb hdata htable, runsTo_decoded hin,
      exec_encode_accepted rfl (allWritten_finish_putData _ _) ((tableReady_iff _).1 marked), runsTo_encoded hin, rfl,
      data_eq_of_dataPair (encodeBlock_decodeBlock s.block.s (dataPair s.block)), rfl⟩

end Sys2Proof.Machine
end

section
/-! PROOFS. The control invariant of the block (R25, R36, R99, R112): it holds at reset, every step keeps it, and under it a running
operation completes (R104, R192). -/

namespace Sys2Proof.Machine

/-- The block with other status bits. -/
def withFlags (done errCmd errBusy : Bool) (blk : Block) : Block :=
  { blk with done := done, errCmd := errCmd, errBusy := errBusy }

/-- What an instruction that goes on can do to the block: set or clear status bits; store, not busy, so that the phase and the hidden
state stay; or have an operation accepted, not busy and with its inputs written. -/
theorem exec_flags_stores_or_accepts {i : Instr} {s t : State} (h : exec i s = .next t) :
    (∃ d c e, t.block = withFlags d c e s.block) ∨
      (busy s.block = false ∧ ∃ key kw data dw table sw, t.block =
        { s.block with
          key := key, keyWritten := kw, data := data, dataWritten := dw, s := table, sWritten := sw }) ∨
      (busy s.block = false ∧ ∃ op, inputsReady op s.block = true ∧ t.block = accept op s.block) := by
  rcases exec_block_cases h with e | e | e | ⟨v, e⟩ | ⟨hb, ⟨_, _, _, e⟩ | ⟨_, _, _, e⟩ | ⟨_, _, _, e⟩⟩ | haccept
  · exact .inl ⟨_, _, _, e⟩
  · exact .inl ⟨_, _, _, e⟩
  · exact .inl ⟨_, _, _, e⟩
  · exact .inl ⟨_, _, _, e⟩
  · exact .inr (.inl ⟨hb, _, _, _, _, _, _, e⟩)
  · exact .inr (.inl ⟨hb, _, _, _, _, _, _, e⟩)
  · exact .inr (.inl ⟨hb, _, _, _, _, _, _, e⟩)
  · exact .inr (.inr haccept)

/-- With no operation running, only the ranges of the counters are left to hold. -/
theorem controlInv_of_idle {blk : Block} (hp : blk.phase = .idle) (hm : blk.m ≤ 26) (hk : blk.k ≤ 78) (hr : blk.r ≤ 13) :
    ControlInv blk := by
  constructor <;> simp [busy, hp, hm, hk, hr]

theorem controlInv_reset : ControlInv Block.reset := controlInv_of_idle rfl (by decide) (by decide) (by decide)

theorem controlInv_accept {op : Operation} {blk : Block} (h : ControlInv blk) (hr : inputsReady op blk = true) :
    ControlInv (accept op blk) := by
  cases op
  case expand =>
    exact { h with
      busy_not_done := fun _ => rfl, m_range := Nat.zero_le _, expand_inputs := fun _ => hr
      encode_inputs := nofun, decode_inputs := nofun, mixing := nofun, encode_round := nofun, decode_round := nofun }
  case encode =>
    exact { h with
      busy_not_done := fun _ => rfl, r_range := Nat.zero_le _, encode_inputs := fun _ => hr
      expand_inputs := nofun, decode_inputs := nofun, mixing := nofun
      encode_round := fun _ => Nat.zero_le _, decode_round := nofun }
  case decode =>
    exact { h with
      busy_not_done := fun _ => rfl, r_range := Nat.le_succ 12, decode_inputs := fun _ => hr
      expand_inputs := nofun, encode_inputs := nofun, mixing := nofun
      encode_round := nofun, decode_round := fun _ => Nat.le_refl _ }

section micro
variable {blk : Block} (h : ControlInv blk)
include h

theorem controlInv_expandMicro (hp : blk.phase = .expand) : ControlInv (expandMicro blk) := by
  have hrange := h.m_range
  rcases expandMicro_cases blk with ⟨hm, e⟩ | ⟨hm, e⟩ | ⟨hm, hk, e⟩ | ⟨hm, hk, e⟩ <;> rw [e]
  · exact { h with m_range := Nat.le_of_lt hm, mixing := fun _ h26 => absurd h26 (Nat.ne_of_lt hm) }
  · exact { h with m_range := Nat.le_refl _, k_range := Nat.zero_le _, mixing := fun _ _ => ⟨Nat.zero_lt_succ 77, rfl, rfl⟩ }
  · obtain ⟨_, hi, hj⟩ := h.mixing hp (Nat.le_antisymm hrange hm)
    refine { h with k_range := Nat.le_of_lt hk, mixing := fun _ _ => ⟨hk, ?_, ?_⟩ }
    · simp only [withMix_i, mixOne, mixOf, Fin.val_add, hi]
      exact Nat.mod_add_mod blk.k 26 1
    · simp only [withMix_j, mixOne, mixOf, Fin.val_add, hj]
      exact Nat.mod_add_mod blk.k 4 1
  · obtain ⟨hlt, _⟩ := h.mixing hp (Nat.le_antisymm hrange hm)
    exact controlInv_of_idle rfl hrange hlt h.r_range

theorem controlInv_encodeMicro (hp : blk.phase = .encode) : ControlInv (encodeMicro blk) := by
  have hround := h.encode_round hp
  have other : blk.phase ≠ .decode := by simp [hp]
  rcases encodeMicro_cases blk with ⟨_, e⟩ | ⟨_, hr, e⟩ | ⟨_, e⟩ <;> rw [e]
  · exact { h with
      r_range := Nat.succ_le_succ (Nat.zero_le 12), encode_round := fun _ => Nat.succ_le_succ (Nat.zero_le 11)
      decode_round := fun hd => absurd hd other }
  · exact { h with
      r_range := Nat.succ_le_succ hround, encode_round := fun _ => hr, decode_round := fun hd => absurd hd other }
  · exact controlInv_of_idle rfl h.m_range h.k_range (Nat.succ_le_succ hround)

theorem controlInv_decodeMicro (hp : blk.phase = .decode) : ControlInv (decodeMicro blk) := by
  have hround := h.decode_round hp
  have other : blk.phase ≠ .encode := by simp [hp]
  rcases decodeMicro_cases blk with ⟨_, e⟩ | ⟨_, e⟩ <;> rw [e]
  · exact controlInv_of_idle rfl h.m_range h.k_range h.r_range
  · exact { h with
      r_range := (Nat.sub_le _ _).trans h.r_range, encode_round := fun he => absurd he other
      decode_round := fun _ => (Nat.sub_le _ _).trans hround }

/-- Every engine step keeps the control invariant. -/
theorem controlInv_engineStep : ControlInv (engineStep blk) := by
  cases hp : blk.phase with
  | idle => rw [engineStep_idle hp]; exact h
  | expand => rw [engineStep_expand hp]; exact controlInv_expandMicro h hp
  | encode => rw [engineStep_encode hp]; exact controlInv_encodeMicro h hp
  | decode => rw [engineStep_decode hp]; exact controlInv_decodeMicro h hp

end micro

/-- Every instruction keeps the control invariant. -/
theorem controlInv_exec {i : Instr} {s t : State} (h : ControlInv s.block) (ht : exec i s = .next t) : ControlInv t.block := by
  have hdone := exec_keeps_busy_not_done h.busy_not_done ht
  rcases exec_flags_stores_or_accepts ht with ⟨d, c, e, ht⟩ | ⟨hb, _, _, _, _, _, _, ht⟩ | ⟨_, op, hr, ht⟩
  · rw [ht] at hdone ⊢
    exact { h with busy_not_done := hdone }
  · rw [ht]
    exact controlInv_of_idle (busy_false_iff.1 hb) h.m_range h.k_range h.r_range
  · rw [ht]
    exact controlInv_accept h hr

/-- Settles O54: a step is a micro-step, the reset input, an instruction or a bus error, and each keeps the invariant. -/
theorem stepKeepsTheControlInvariant : Obligations.StepKeepsTheControlInvariant := by
  intro s t h ht
  rcases step_block_cases ht with e | ⟨_, e⟩ | ⟨i, s', hs, hexec⟩ | e
  · rw [e]; exact controlInv_engineStep h
  · rw [e]; exact controlInv_reset
  · exact controlInv_exec (hs ▸ h) hexec
  · rw [e]; exact h

/-! ### Completion of a running operation -/

/-- The micro-steps a running operation has still to take (R127, R151). -/
def microStepsLeft (blk : Block) : Nat :=
  match blk.phase with
  | .idle => 0
  | .expand => if blk.m < 26 then 26 - blk.m + 78 else 78 - blk.k
  | .encode => 13 - blk.r
  | .decode => blk.r + 1

theorem microStepsLeft_idle {blk : Block} (hp : blk.phase = .idle) : microStepsLeft blk = 0 := by
  simp [microStepsLeft, hp]

/-- Each micro-step leaves one fewer to take, the last of them none. -/
theorem microStepsLeft_engineStep {blk : Block} (h : ControlInv blk) (hp : blk.phase ≠ .idle) :
    microStepsLeft (engineStep blk) + 1 = microStepsLeft blk := by
  cases hphase : blk.phase with
  | idle => exact absurd hphase hp
  | expand =>
    have hmix := h.mixing hphase
    have hrange := h.m_range
    rw [engineStep_expand hphase]
    rcases expandMicro_cases blk with ⟨hm, e⟩ | ⟨hm, e⟩ | ⟨hm, _, e⟩ | ⟨hm, _, e⟩ <;> rw [e]
    · simp [microStepsLeft, hphase, hm, show blk.m < 26 by omega]; omega
    · simp [microStepsLeft, hphase, hm]
    · simp [microStepsLeft, hphase, show ¬ blk.m < 26 by omega]; omega
    · simp [microStepsLeft, hphase, show ¬ blk.m < 26 by omega]; omega
  | encode =>
    have hround := h.encode_round hphase
    rw [engineStep_encode hphase]
    rcases encodeMicro_cases blk with ⟨hr, e⟩ | ⟨_, _, e⟩ | ⟨_, e⟩ <;> rw [e]
    · simp [microStepsLeft, hphase, hr]
    · simp [microStepsLeft, hphase]; omega
    · simp [microStepsLeft, hphase]; omega
  | decode =>
    rw [engineStep_decode hphase]
    rcases decodeMicro_cases blk with ⟨hr, e⟩ | ⟨_, e⟩ <;> rw [e]
    · simp [microStepsLeft, hphase, hr]
    · simp [microStepsLeft, hphase]; omega

/-- No operation has more than EXPAND's 26 + 78 micro-steps (R127). -/
theorem microStepsLeft_le {blk : Block} (h : ControlInv blk) : microStepsLeft blk ≤ 104 := by
  have hr := h.r_range
  unfold microStepsLeft
  cases blk.phase <;> dsimp only
  case expand => split <;> omega
  all_goals omega

/-- The engine completes a running operation in as many micro-steps as it has left. -/
theorem engineSteps_complete {blk : Block} (h : ControlInv blk) (hp : blk.phase ≠ .idle) :
    (engineSteps blk (microStepsLeft blk)).phase = .idle ∧ (engineSteps blk (microStepsLeft blk)).done = true := by
  induction hleft : microStepsLeft blk generalizing blk with
  | zero => exact absurd (microStepsLeft_engineStep h hp) (by omega)
  | succ left ih =>
    have hnext : microStepsLeft (engineStep blk) = left := by
      have := microStepsLeft_engineStep h hp
      omega
    by_cases hi : (engineStep blk).phase = .idle
    · obtain rfl : 0 = left := (microStepsLeft_idle hi).symm.trans hnext
      exact ⟨hi, engineStep_done_of_completes hp hi⟩
    · exact ih (controlInv_engineStep h) hi hnext

/-- Settles O52: with no input left every step is the engine's, and it has at most 104 micro-steps to take. -/
theorem everyOperationCompletes : Obligations.EveryOperationCompletes :=
  fun s h hin hb =>
    ⟨_, microStepsLeft_le h, _, runsTo_engineSteps s hin _, engineSteps_complete h (busy_iff.1 hb)⟩

end Sys2Proof.Machine
end

section
/-! PROOFS. The progress invariant (R62, R65): what the engine has computed is the function layer's of its inputs, and so a completion
writes the right result, whatever transactions came between the micro-steps (R110). -/

namespace Sys2Proof.Machine

/-- The initialised table is what an initialisation micro-step goes on building (R121). -/
theorem initWord_initTable (t : Vector Word 26) {m : Nat} (hm : m < 26) :
    initWord (initTable t) m = tableWord (initTable t) m := by
  have below : ∀ n < m, tableWord (initTable t) n = tableWord (initSteps t m) n := fun n hn =>
    (tableWord_initTable t (hn.trans hm)).trans (tableWord_initSteps t (Nat.le_of_lt hm) hn).symm
  rw [initWord_congr_below below, tableWord_initTable t hm, ← tableWord_initSteps t hm (Nat.lt_succ_self m), initSteps,
    tableWord_initOne _ _ hm, if_pos rfl]

/-- A table that is initialised below `m` is initialised below `m + 1` after micro-step `m` (R121). -/
theorem initOne_extends {s t : Vector Word 26} {m : Nat} (hm : m < 26)
    (h : ∀ n < m, tableWord s n = tableWord (initTable t) n) {n : Nat} (hn : n < m + 1) :
    tableWord (initOne s m) n = tableWord (initTable t) n := by
  rw [tableWord_initOne _ _ (by omega)]
  split
  next heq => rw [heq, initWord_congr_below h, initWord_initTable t hm]
  next hne => exact h n (by omega)

theorem progressInv_of_idle {blk : Block} (hp : blk.phase = .idle) : ProgressInv blk := by
  constructor <;> simp [hp]

section phases
variable {blk : Block}

/-- During EXPAND only the table and the mixing state matter. -/
theorem progressInv_of_expand (hp : blk.phase = .expand) (words : blk.m < 26 → blk.l = blk.key)
    (table : blk.m < 26 → ∀ n < blk.m, tableWord blk.s n = tableWord (initTable (Vector.replicate 26 0#32)) n)
    (mix : blk.m = 26 → mixOf blk = mixSteps (mixStart (initTable (Vector.replicate 26 0#32)) blk.key) blk.k) :
    ProgressInv blk :=
  { words := fun _ => words, table := fun _ => table, mix := fun _ => mix, encode := by simp [hp], decode := by simp [hp] }

/-- During ENCODE only A and B after its rounds so far matter. -/
theorem progressInv_of_encode (hp : blk.phase = .encode)
    (encode : blk.r ≠ 0 → (blk.a, blk.b) = encodeAfter blk.s (dataPair blk) (blk.r - 1)) : ProgressInv blk :=
  { encode := fun _ => encode, words := by simp [hp], table := by simp [hp], mix := by simp [hp], decode := by simp [hp] }

/-- During DECODE only A and B after its rounds so far matter. -/
theorem progressInv_of_decode (hp : blk.phase = .decode)
    (decode : (blk.a, blk.b) = decodeAfter blk.s (dataPair blk) (12 - blk.r)) : ProgressInv blk :=
  { decode := fun _ => decode, words := by simp [hp], table := by simp [hp], mix := by simp [hp], encode := by simp [hp] }

end phases

theorem progressInv_accept (op : Operation) (blk : Block) : ProgressInv (accept op blk) := by
  cases op with
  | expand =>
    exact progressInv_of_expand rfl (fun _ => rfl) (fun _ _ hn => absurd hn (Nat.not_lt_zero _)) (fun h26 => nomatch h26)
  | encode => exact progressInv_of_encode rfl fun hr => absurd rfl hr
  | decode => exact progressInv_of_decode rfl rfl

section micro
variable {blk : Block} (h : ProgressInv blk)
include h

theorem progressInv_expandMicro (hc : ControlInv blk) (hp : blk.phase = .expand) : ProgressInv (expandMicro blk) := by
  have hrange := hc.m_range
  rcases expandMicro_cases blk with ⟨hm, e⟩ | ⟨hm, e⟩ | ⟨hm, _, e⟩ | ⟨_, _, e⟩ <;> rw [e]
  · have hm26 : blk.m < 26 := Nat.lt_of_succ_lt hm
    exact progressInv_of_expand hp (fun _ => h.words hp hm26) (fun _ _ => initOne_extends hm26 (h.table hp hm26))
      (fun h26 => absurd h26 (Nat.ne_of_lt hm))
  · have hm26 : blk.m < 26 := by omega
    have hwords : blk.l = blk.key := h.words hp hm26
    have htable : initOne blk.s 25 = initTable (Vector.replicate 26 0#32) :=
      table_ext fun n hn => initOne_extends (by decide) (hm ▸ h.table hp hm26) hn
    refine progressInv_of_expand hp (fun hlt => absurd hlt (Nat.lt_irrefl 26)) (fun hlt => absurd hlt (Nat.lt_irrefl 26))
      (fun _ => ?_)
    rw [htable, hwords]
    rfl
  · exact progressInv_of_expand hp (fun hlt => absurd hlt (Nat.not_lt.2 hm)) (fun hlt => absurd hlt (Nat.not_lt.2 hm))
      (fun _ => congrArg mixOne (h.mix hp (Nat.le_antisymm hrange hm)))
  · exact progressInv_of_idle rfl

theorem progressInv_encodeMicro (hp : blk.phase = .encode) : ProgressInv (encodeMicro blk) := by
  rcases encodeMicro_cases blk with ⟨_, e⟩ | ⟨hr, _, e⟩ | ⟨_, e⟩ <;> rw [e]
  · exact progressInv_of_encode hp fun _ => rfl
  · refine progressInv_of_encode hp fun _ => ?_
    obtain ⟨n, hn⟩ := Nat.exists_eq_succ_of_ne_zero hr
    have held := h.encode hp hr
    simp only [held, hn]
    rfl
  · exact progressInv_of_idle rfl

theorem progressInv_decodeMicro (hc : ControlInv blk) (hp : blk.phase = .decode) : ProgressInv (decodeMicro blk) := by
  have hround := hc.decode_round hp
  rcases decodeMicro_cases blk with ⟨_, e⟩ | ⟨hr, e⟩ <;> rw [e]
  · exact progressInv_of_idle rfl
  · refine progressInv_of_decode hp ?_
    have held := h.decode hp
    have hnext : 12 - (blk.r - 1) = 12 - blk.r + 1 := by omega
    have hthis : 12 - (12 - blk.r) = blk.r := by omega
    simp only [held, hnext, decodeAfter, Config.rounds, hthis]
    rfl

/-- Every engine step keeps the progress invariant. -/
theorem progressInv_engineStep (hc : ControlInv blk) : ProgressInv (engineStep blk) := by
  cases hp : blk.phase with
  | idle => rw [engineStep_idle hp]; exact h
  | expand => rw [engineStep_expand hp]; exact progressInv_expandMicro h hc hp
  | encode => rw [engineStep_encode hp]; exact progressInv_encodeMicro h hp
  | decode => rw [engineStep_decode hp]; exact progressInv_decodeMicro h hc hp

end micro

/-- Every instruction keeps the progress invariant. -/
theorem progressInv_exec {i : Instr} {s t : State} (h : ProgressInv s.block) (ht : exec i s = .next t) :
    ProgressInv t.block := by
  rcases exec_flags_stores_or_accepts ht with ⟨d, c, e, ht⟩ | ⟨hb, _, _, _, _, _, _, ht⟩ | ⟨_, op, _, ht⟩ <;> rw [ht]
  · exact { h with }
  · exact progressInv_of_idle (busy_false_iff.1 hb)
  · exact progressInv_accept op _

/-- Settles O53: right after reset no operation runs, and the counters are 0. -/
theorem resetMeetsTheInvariants : Obligations.ResetMeetsTheInvariants := ⟨controlInv_reset, progressInv_of_idle rfl⟩

/-- Settles O55: a step is a micro-step, the reset input, an instruction or a bus error, and each keeps the invariant. -/
theorem stepKeepsTheProgressInvariant : Obligations.StepKeepsTheProgressInvariant := by
  intro s t hc h ht
  rcases step_block_cases ht with e | ⟨_, e⟩ | ⟨i, s', hs, hexec⟩ | e
  · rw [e]; exact progressInv_engineStep h hc
  · rw [e]; exact progressInv_of_idle rfl
  · exact progressInv_exec (hs ▸ h) hexec
  · rw [e]; exact h

/-! ### Completions -/

/-- EXPAND's 78th mixing step completes it (R110). -/
theorem engineStep_expand_completes {blk : Block} (hp : blk.phase = .expand) (hm : blk.m = 26) (hk : blk.k = 77) :
    engineStep blk = finish (markTable { withMix (mixOne (mixOf blk)) blk with k := 78 }) := by
  rw [engineStep_expand hp, expandMicro_lastMix (by omega) (by omega), hk]

/-- ENCODE's twelfth round completes it (R110). -/
theorem engineStep_encode_completes {blk : Block} (hp : blk.phase = .encode) (hr : blk.r = 12) :
    engineStep blk =
      finish (putData (encodeRound blk.s 12 (blk.a, blk.b))
        { blk with
          a := (encodeRound blk.s 12 (blk.a, blk.b)).1
          b := (encodeRound blk.s 12 (blk.a, blk.b)).2
          r := 13 }) := by
  rw [engineStep_encode hp, encodeMicro_last (Nat.le_of_eq hr.symm), hr]

/-- DECODE's un-whitening completes it (R110). -/
theorem engineStep_decode_completes {blk : Block} (hp : blk.phase = .decode) (hr : blk.r = 0) :
    engineStep blk = finish (putData (unwhiten blk.s (blk.a, blk.b)) blk) :=
  (engineStep_decode hp).trans (decodeMicro_unwhitening hr)

/-- Settles O45: the last micro-step of each operation is the one lemma of its name. -/
theorem completionWritesTheResults : Obligations.CompletionWritesTheResults := by
  refine fun blk => ⟨fun hp hm hk => ?_, fun hp hr => ?_, fun hp hr => ?_⟩
  · rw [engineStep_expand_completes hp hm hk]
    exact ⟨rfl, rfl, rfl, allWritten_finish_markTable _, rfl, rfl, rfl, rfl, rfl, rfl⟩
  · rw [engineStep_encode_completes hp hr]
    exact ⟨rfl, rfl, rfl, allWritten_finish_putData _ _, rfl, rfl, rfl, rfl, rfl, rfl⟩
  · rw [engineStep_decode_completes hp hr]
    exact ⟨rfl, rfl, rfl, rfl, allWritten_finish_putData _ _, rfl, rfl, rfl, rfl, rfl, rfl⟩

/-- A step that ends a running operation without the reset input is its last micro-step, and gives no response. -/
theorem step_completion {s t : State} (ht : step s = .next t) (hb : busy s.block = true) (hidle : t.block.phase = .idle)
    (hreset : ∀ rest, s.inputs ≠ .reset :: rest) :
    t.block = engineStep s.block ∧ t.block.done = true ∧ t.trace = s.trace := by
  have running := busy_iff.1 hb
  rcases step_next_cases ht with ⟨_, rfl⟩ | ⟨rest, _, rfl⟩ | ⟨rest, he, _⟩ | ⟨_, _, rest, i, _, _, hexec⟩ |
    ⟨_, _, rest, _, _, _, rfl⟩
  · exact ⟨rfl, engineStep_done_of_completes running hidle, rfl⟩
  · exact ⟨rfl, engineStep_done_of_completes running hidle, rfl⟩
  · exact absurd he (hreset rest)
  · exact absurd ((exec_phase_of_busy hexec hb).symm.trans hidle) running
  · exact absurd hidle running

/-- Only an operation with one micro-step left can complete. -/
theorem microStepsLeft_eq_one {blk : Block} (h : ControlInv blk) (hp : blk.phase ≠ .idle)
    (hidle : (engineStep blk).phase = .idle) : microStepsLeft blk = 1 := by
  rw [← microStepsLeft_engineStep h hp, microStepsLeft_idle hidle]

/-- Settles O56: the completing step is the operation's last micro-step, from partial results that the invariant knows. -/
theorem completionIsCorrectUnderEveryInterleaving : Obligations.CompletionIsCorrectUnderEveryInterleaving := by
  intro s t hc h ht hb hidle hreset
  obtain ⟨e, hdone, htrace⟩ := step_completion ht hb hidle hreset
  rw [e] at hidle ⊢
  have hleft := microStepsLeft_eq_one hc (busy_iff.1 hb) hidle
  refine ⟨e ▸ hdone, htrace, fun hp => ?_, fun hp => ?_, fun hp => ?_⟩
  · have hlast : s.block.m = 26 ∧ s.block.k = 77 := by
      have hrange := hc.m_range
      simp only [microStepsLeft, hp] at hleft
      split at hleft <;> omega
    have held := h.mix hp hlast.1
    rw [engineStep_expand_completes hp hlast.1 hlast.2]
    refine ⟨?_, allWritten_finish_markTable _⟩
    show (mixOne (mixOf s.block)).s = expandKey s.block.key
    rw [held, hlast.2]
    rfl
  · have hr : s.block.r = 12 := by
      simp only [microStepsLeft, hp] at hleft
      omega
    have held := h.encode hp (by omega)
    rw [engineStep_encode_completes hp hr]
    refine ⟨?_, allWritten_finish_putData _ _⟩
    show encodeRound s.block.s 12 (s.block.a, s.block.b) = encodeBlock s.block.s (dataPair s.block)
    rw [held, hr]
    rfl
  · have hr : s.block.r = 0 := by
      simp only [microStepsLeft, hp] at hleft
      omega
    have held := h.decode hp
    rw [engineStep_decode_completes hp hr]
    refine ⟨?_, allWritten_finish_putData _ _⟩
    show unwhiten s.block.s (s.block.a, s.block.b) = decodeBlock s.block.s (dataPair s.block)
    rw [held, hr]
    rfl

end Sys2Proof.Machine
end

section
/-! PROOFS. The micro-steps one by one: what none of them touches (R26, R31), mixing in its order (R122, R124), and the rounds of
ENCODE (R141, R142). -/

namespace Sys2Proof.Machine

/-- Settles O12: the step lemmas of the empty list and of an engine turn; and an idle engine does nothing. -/
theorem engineTurnsAreMicroSteps : Obligations.EngineTurnsAreMicroSteps :=
  fun _ => ⟨step_nil, fun _ => step_engine, engineStep_idle⟩

/-! ### Frames -/

/-- What no micro-step changes: KEY and its marks, and the error flags. -/
structure EngineFrame (before after : Block) : Prop where
  key : after.key = before.key
  keyWritten : after.keyWritten = before.keyWritten
  errCmd : after.errCmd = before.errCmd
  errBusy : after.errBusy = before.errBusy

/-- What a micro-step of EXPAND leaves besides: DATA and its marks (R31). -/
structure ExpandFrame (before after : Block) : Prop where
  engine : EngineFrame before after
  data : after.data = before.data
  dataWritten : after.dataWritten = before.dataWritten

/-- What a micro-step of ENCODE or DECODE leaves besides: S, its marks, and EXPAND's hidden state (R31). -/
structure CipherFrame (before after : Block) : Prop where
  engine : EngineFrame before after
  s : after.s = before.s
  sWritten : after.sWritten = before.sWritten
  l : after.l = before.l
  i : after.i = before.i
  j : after.j = before.j
  k : after.k = before.k

theorem expandMicro_frame (blk : Block) : ExpandFrame blk (expandMicro blk) := by
  rcases expandMicro_cases blk with ⟨_, e⟩ | ⟨_, e⟩ | ⟨_, _, e⟩ | ⟨_, _, e⟩ <;> rw [e] <;>
    exact ⟨⟨rfl, rfl, rfl, rfl⟩, rfl, rfl⟩

theorem encodeMicro_frame (blk : Block) : CipherFrame blk (encodeMicro blk) := by
  rcases encodeMicro_cases blk with ⟨_, e⟩ | ⟨_, _, e⟩ | ⟨_, e⟩ <;> rw [e] <;>
    exact ⟨⟨rfl, rfl, rfl, rfl⟩, rfl, rfl, rfl, rfl, rfl, rfl⟩

theorem decodeMicro_frame (blk : Block) : CipherFrame blk (decodeMicro blk) := by
  rcases decodeMicro_cases blk with ⟨_, e⟩ | ⟨_, e⟩ <;> rw [e] <;>
    exact ⟨⟨rfl, rfl, rfl, rfl⟩, rfl, rfl, rfl, rfl, rfl, rfl⟩

theorem engineStep_frame (blk : Block) : EngineFrame blk (engineStep blk) :=
  engineStep_induct (p := EngineFrame) blk ⟨rfl, rfl, rfl, rfl⟩ (expandMicro_frame blk).engine (encodeMicro_frame blk).engine
    (decodeMicro_frame blk).engine

/-- Settles O46: each operation's micro-steps keep its frame. -/
theorem operationsWriteOnlyTheirOutput : Obligations.OperationsWriteOnlyTheirOutput := by
  intro blk
  refine ⟨(engineStep_frame blk).key, (engineStep_frame blk).keyWritten, fun hp => ?_, fun hp => ?_⟩
  · rw [engineStep_expand hp]
    exact ⟨(expandMicro_frame blk).data, (expandMicro_frame blk).dataWritten⟩
  · have frame : CipherFrame blk (engineStep blk) := by
      rcases hp with hp | hp
      · rw [engineStep_encode hp]; exact encodeMicro_frame blk
      · rw [engineStep_decode hp]; exact decodeMicro_frame blk
    exact ⟨frame.s, frame.sWritten, frame.l, frame.i, frame.j, frame.k⟩

/-- What an instruction that goes on can do to the error flags: leave both; drop a write while busy; record an illegal command; or
write STATUS. -/
theorem exec_errors_cases {i : Instr} {s t : State} (h : exec i s = .next t) :
    (t.block.errCmd = s.block.errCmd ∧ t.block.errBusy = s.block.errBusy) ∨
      (i.writesGuarded = true ∧ busy s.block = true ∧ t.block = setErrBusy s.block) ∨
      (∃ c, i = .wrCmd c ∧ busy s.block = false ∧ decodeCommand c = none ∧ t.block = setErrCmd s.block) ∨
      ∃ v, i = .wrStatus v ∧ t.block = clearStatus v s.block := by
  cases exec_effect h with
  | answered _ _ e | drew _ _ e _ | storedKey _ _ _ _ _ e | storedData _ _ _ _ _ e | storedTable _ _ _ _ _ _ _ e =>
    subst e; exact .inl ⟨rfl, rfl⟩
  | accepted _ op _ _ _ e => subst e; exact .inl ⟨accept_errCmd op _, accept_errBusy op _⟩
  | dropped _ hg hb e => subst e; exact .inr (.inl ⟨hg, hb, rfl⟩)
  | illegal c hb hc e => subst e; exact .inr (.inr (.inl ⟨c, rfl, hb, hc, rfl⟩))
  | cleared v e => subst e; exact .inr (.inr (.inr ⟨v, rfl, rfl⟩))

/-- Settles O38: micro-steps have both flags in their frame, and of an instruction's four ways each clause leaves one. -/
theorem errorFlagsAreSticky : Obligations.ErrorFlagsAreSticky := by
  refine ⟨fun blk => ⟨(engineStep_frame blk).errCmd, (engineStep_frame blk).errBusy⟩, fun i s t h => ?_⟩
  rcases exec_errors_cases h with ⟨hc, hb⟩ | ⟨hg, hbusy, e⟩ | ⟨c, rfl, hidle, hc, e⟩ | ⟨v, rfl, e⟩
  · rw [hc, hb]
    simp +contextual
  · rw [e]
    simp +contextual [hg, hbusy]
  · rw [e]
    simp +contextual [hidle, hc]
  · rw [e]
    simp +contextual

/-! ### EXPAND -/

/-- Settles O42: the low bits of a sum are those of the sum of the low bits, and only the amount modulo 32 counts. -/
theorem mixingAmountNeedsTheLowBitsOnly : Obligations.MixingAmountNeedsTheLowBitsOnly := by
  intro a b v
  have low : low5 (a + b) = (low5 a + low5 b) % 32 := by
    simp only [low5_eq_mod, BitVec.toNat_add]
    omega
  exact ⟨low, by rw [low, rotl32_mod], fun h0 => rotl32_of_mod_eq_zero v (by rw [h0])⟩

/-- A left rotation by a word's bits 4:0 is core's, by the word modulo 32 (R12). -/
theorem rotl32_low5 (v w : Word) : rotl32 v (low5 w) = v.rotateLeft (w.toNat % 32) := by
  rw [rotl32_eq_rotateLeft, low5_eq_mod]

/-- A mixing micro-step is a mixing step, after which the operation goes on or, the 78th, ends (R109, R122). -/
theorem engineStep_mix {blk : Block} (hp : blk.phase = .expand) (hm : blk.m = 26) :
    ∃ done marks, engineStep blk =
      { withMix (mixOne (mixOf blk)) blk with
        k := blk.k + 1, phase := if blk.k + 1 < 78 then .expand else .idle, done := done, sWritten := marks } := by
  rw [engineStep_expand hp]
  by_cases hk : blk.k + 1 < 78
  · rw [expandMicro_mix (Nat.le_of_eq hm.symm) hk, if_pos hk, ← hp]
    exact ⟨_, _, rfl⟩
  · rw [expandMicro_lastMix (Nat.le_of_eq hm.symm) hk, if_neg hk]
    exact ⟨_, _, rfl⟩

/-- Settles O40: the 26th initialisation micro-step leaves the start of mixing, and each mixing micro-step is a mixing step, read in
core's rotations. -/
theorem mixingStepFollowsItsOrder : Obligations.MixingStepFollowsItsOrder := by
  refine ⟨fun blk hp hm => ?_, fun blk hp hm => ?_⟩
  · rw [engineStep_expand hp, expandMicro_lastInit hm]
    exact ⟨rfl, rfl, rfl, rfl, rfl, rfl, hp⟩
  · intro a b next
    obtain ⟨done, marks, hnext⟩ : ∃ done marks, next = _ := engineStep_mix hp hm
    have ha : (mixOne (mixOf blk)).a = a := by simp only [mixOne, mixOf, rotl32_eq_rotateLeft, a]
    have hb : (mixOne (mixOf blk)).b = b := by
      simp only [b, ← ha]
      exact rotl32_low5 _ _
    have hs : next.s = blk.s.set blk.i a := by rw [hnext, ← ha]; rfl
    have hl : next.l = blk.l.set blk.j b := by rw [hnext, ← hb]; rfl
    refine ⟨by rw [hnext, ← ha]; rfl, by rw [hnext, ← hb]; rfl, by simp [hs], by simp [hl], fun n hn => ?_,
      fun n hn => ?_, ?_⟩
    · simp [hs, Vector.getElem_set_ne, Fin.val_ne_of_ne hn.symm]
    · simp [hl, Vector.getElem_set_ne, Fin.val_ne_of_ne hn.symm]
    · rw [hnext]
      exact ⟨Fin.val_add _ _, Fin.val_add _ _, rfl, rfl, rfl, rfl, rfl, rfl⟩

/-! ### ENCODE -/

/-- Settles O43: the first micro-step is the whitening, each other one its round, read in core's rotations, and the twelfth
completes. -/
theorem encodeMicroStepsAreTheRounds : Obligations.EncodeMicroStepsAreTheRounds := by
  refine fun blk hp => ⟨engineStep_whitening hp, fun hr => ?_⟩
  intro a b next
  have round : encodeRound blk.s blk.r (blk.a, blk.b) = (a, b) := by
    simp only [encodeRound, rotl32_low5, tableWord_of_lt blk.s (show 2 * blk.r < 26 by omega),
      tableWord_of_lt blk.s (show 2 * blk.r + 1 < 26 by omega), a, b]
  rw [engineStep_encode hp]
  by_cases hlt : blk.r < 12
  · rw [encodeMicro_round (by omega) hlt, round, if_pos hlt]
  · rw [encodeMicro_last (Nat.not_lt.1 hlt), round, if_neg hlt]
    rfl

end Sys2Proof.Machine
end

section
/-! PROOFS. The reads (40_bus_access.md R91, R95, R96, R98, R100 to R102) and their data on the lanes (30_encoding.md R73). -/

namespace Sys2Proof.Machine

/-! ### The lanes of a read -/

/-- RDATA has the register's bytes on the lanes the access covers, and 0 on the others (R73). -/
theorem byteLane_readLanes_accessLanes (sz : Size) (off : Offset) (value : Word) {k : Nat} (hk : k < 4) :
    byteLane (readLanes (accessLanes sz off) value) k = if CoversLane sz off k then byteLane value k else 0#8 := by
  rw [readLanes, byteLane_mergeLanes_accessLanes sz off value 0#32 hk, byteLane_zero]

/-- A shift by whole lanes moves the lanes. -/
theorem byteLane_shiftLeft (w : Word) (l : Nat) {k : Nat} (hk : k < 4) :
    byteLane (w <<< (8 * l)) k = if l ≤ k then byteLane w (k - l) else 0#8 := by
  apply BitVec.eq_of_getLsbD_eq
  intro i hi
  rw [getLsbD_byteLane, BitVec.getLsbD_shiftLeft]
  split
  next hle =>
    rw [getLsbD_byteLane, show 8 * k + i - 8 * l = 8 * (k - l) + i by omega]
    simp [show 8 * k + i < 32 by omega, show ¬ 8 * k + i < 8 * l by omega]
  next hgt => simp [show 8 * k + i < 8 * l by omega]

/-- MemRead of the bytes of a size has them on its lowest lanes (R53). -/
theorem byteLane_memRead (byteAt : Nat → Byte) (sz : Size) {m : Nat} (hm : m < 4) :
    byteLane (memRead byteAt sz.bytes) m = if m < sz.bytes then byteAt m else 0#8 := by
  have packed : memRead byteAt sz.bytes =
      pack4 (byteAt 0) (if 1 < sz.bytes then byteAt 1 else 0#8) (if 2 < sz.bytes then byteAt 2 else 0#8)
        (if 3 < sz.bytes then byteAt 3 else 0#8) := by
    apply BitVec.eq_of_toNat_eq
    rw [toNat_pack4]
    cases sz <;> simp [memRead, Size.bytes, Nat.shiftLeft_eq] <;> omega
  rw [packed]
  revert m
  rw [forall_lane]
  cases sz <;> simp [Size.bytes]

/-- Settles O24: lane by lane, MemRead's byte `m` is moved to lane `(off mod 4) + m`. -/
theorem readDataTravelsOnItsLanes : Obligations.ReadDataTravelsOnItsLanes := by
  refine ⟨fun sz off value ha => ⟨?_, fun k hk hn => ?_⟩, fun _ _ _ => rfl⟩
  · apply word_ext_lanes
    intro k hk
    rw [byteLane_readLanes_accessLanes _ _ _ hk, show off.toNat % 4 = laneOf off from rfl, byteLane_shiftLeft _ _ hk]
    by_cases hle : laneOf off ≤ k
    · rw [if_pos hle, byteLane_memRead _ _ (by omega)]
      by_cases hlt : k < laneOf off + sz.bytes
      · rw [if_pos ⟨hle, hlt⟩, if_pos (by omega), show laneOf off + (k - laneOf off) = k by omega]
      · rw [if_neg (fun h => hlt h.2), if_neg (by omega)]
    · rw [if_neg (fun h => hle h.1), if_neg hle]
  · rw [byteLane_readLanes_accessLanes _ _ _ hk, if_neg hn]

/-! ### Reads of registers that always answer -/

/-- An aligned read of a register that always answers. -/
theorem readConstant_aligned {sz : Size} {off : Offset} (ha : aligned sz off = true) (value : Word) (s : State) :
    readConstant sz off value s = .next (respond (.readOkay (readLanes (accessLanes sz off) value)) s) :=
  guardAligned_of_aligned ha

/-- Settles O17: both are word reads, of 0 and of the status bits. -/
theorem statusAndCommandReads : Obligations.StatusAndCommandReads := by
  refine fun s => ⟨exec_rdCmd s, _, exec_rdStatus s, ?_⟩
  simp only [getLsbD_statusWord]
  refine ⟨?_, rfl, rfl, rfl, fun k hk => ?_⟩
  · cases hp : s.block.phase <;> simp [busy, hp]
  · simp [show k ≠ 0 by omega, show k ≠ 1 by omega, show k ≠ 2 by omega, show k ≠ 3 by omega]

/-- Settles O18: an aligned read of a register that always answers, of PARAM's constant. -/
theorem paramReadsAnswerTheConstant : Obligations.ParamReadsAnswerTheConstant :=
  fun s sz _ ha => ⟨_, readConstant_aligned ha Config.paramValue s, fun _ => byteLane_readLanes_accessLanes sz _ _⟩

/-! ### Reads of storage -/

/-- The register that `off` lies in holds `value`, of which the lanes in `written` are written (R39, R50, R52). -/
def RegisterAt (blk : Block) (off : Offset) (value : Word) (written : Lanes) : Prop :=
  ∀ x : Offset, x.toNat / 4 = off.toNat / 4 → storedByte blk x = laneByte value written (laneOf x)

theorem registerAt_key (blk : Block) (o : BitVec 4) :
    RegisterAt blk (keyOff o) blk.key[keyIndex o] blk.keyWritten[keyIndex o] := by
  intro x hx
  rw [toNat_keyOff] at hx
  exact storedByte_key blk x (keyIndex o) (keyIndex o).isLt (by omega) (by simp only [keyIndex]; omega)

theorem registerAt_data (blk : Block) (o : BitVec 3) :
    RegisterAt blk (dataOff o) blk.data[dataIndex o] blk.dataWritten[dataIndex o] := by
  intro x hx
  rw [toNat_dataOff] at hx
  exact storedByte_data blk x (dataIndex o) (dataIndex o).isLt (by omega) (by simp only [dataIndex]; omega)

theorem registerAt_table (blk : Block) {off : Offset} {idx : Fin 26} (h : 0x40 ≤ off.toNat)
    (hidx : (off.toNat - 0x40) / 4 = idx) : RegisterAt blk off blk.s[idx] blk.sWritten[idx] := by
  intro x hx
  exact storedByte_table blk x idx idx.isLt (by omega) (by omega)

/-! The word of S that an offset of each row selects (R50). -/

theorem sLowOff_selects (o : BitVec 6) :
    0x40 ≤ (sLowOff o).toNat ∧ ((sLowOff o).toNat - 0x40) / 4 = (sLowIndex o).val := by
  simp [sLowIndex]

theorem sMidOff_selects (o : BitVec 5) :
    0x40 ≤ (sMidOff o).toNat ∧ ((sMidOff o).toNat - 0x40) / 4 = (sMidIndex o).val := by
  simp only [toNat_sMidOff, sMidIndex]
  omega

theorem sHighOff_selects (o : BitVec 3) :
    0x40 ≤ (sHighOff o).toNat ∧ ((sHighOff o).toNat - 0x40) / 4 = (sHighIndex o).val := by
  simp only [toNat_sHighOff, sHighIndex]
  omega

/-- The three rows of reads of S (R96). -/
def ReadsTable (i : Instr) (sz : Size) (off : Offset) : Prop :=
  (∃ o, i = .rdSLow sz o ∧ off = sLowOff o) ∨ (∃ o, i = .rdSMid sz o ∧ off = sMidOff o) ∨
    (∃ o, i = .rdSHigh sz o ∧ off = sHighOff o)

/-- A read of S by any of its rows is the read of the word its offset selects (R50, R96). -/
theorem exec_of_readsTable {i : Instr} {sz : Size} {off : Offset} (h : ReadsTable i sz off) :
    ∃ idx : Fin 26, 0x40 ≤ off.toNat ∧ (off.toNat - 0x40) / 4 = idx ∧ ∀ s, exec i s = readTable sz off idx s := by
  rcases h with ⟨o, rfl, rfl⟩ | ⟨o, rfl, rfl⟩ | ⟨o, rfl, rfl⟩
  · exact ⟨sLowIndex o, (sLowOff_selects o).1, (sLowOff_selects o).2, fun _ => rfl⟩
  · exact ⟨sMidIndex o, (sMidOff_selects o).1, (sMidOff_selects o).2, fun _ => rfl⟩
  · exact ⟨sHighIndex o, (sHighOff_selects o).1, (sHighOff_selects o).2, fun _ => rfl⟩

section register
variable {s : State} {sz : Size} {off : Offset} {value : Word} {written : Lanes} (ha : aligned sz off = true)
  (hreg : RegisterAt s.block off value written)
include ha hreg

/-- The lanes of an access are written when each byte it covers is. -/
theorem lanesWritten_iff_coveredWritten :
    lanesWritten (accessLanes sz off) written = true ↔ CoveredWritten s.block sz off := by
  rw [lanesWritten_iff]
  constructor
  · intro h x hx
    have hsame := (covers_register ha hx).1
    rw [hreg x hsame, laneByte_isSome]
    exact h _ (laneOf_lt x) ((covers_iff_lane ha hsame).1 hx)
  · intro h k hk hlane
    have hx : (BitVec.ofNat 8 (off.toNat / 4 * 4 + k)).toNat = off.toNat / 4 * 4 + k := by simp; omega
    have hsame : (BitVec.ofNat 8 (off.toNat / 4 * 4 + k)).toNat / 4 = off.toNat / 4 := by omega
    have hlaneOf : laneOf (BitVec.ofNat 8 (off.toNat / 4 * 4 + k)) = k := by unfold laneOf; omega
    have hcov := h _ ((covers_iff_lane ha hsame).2 (by rwa [hlaneOf]))
    rwa [hreg _ hsame, laneByte_isSome, hlaneOf] at hcov

/-- An aligned read of written bytes answers with them (R73, R98). -/
theorem readStored_answers (hw : CoveredWritten s.block sz off) :
    ∃ w, readStored sz off value written s = .next (respond (.readOkay w) s) ∧ ReadAnswers s.block sz off w := by
  have lanes := (lanesWritten_iff_coveredWritten ha hreg).2 hw
  refine ⟨_, readStored_written ha lanes, fun x hx => ?_, fun k hk hn => ?_⟩
  · have hsame := (covers_register ha hx).1
    have hlane := (covers_iff_lane ha hsame).1 hx
    rw [hreg x hsame, byteLane_readLanes _ _ _ (laneOf_lt x), if_pos hlane, laneByte,
      if_pos (lanesWritten_iff.1 lanes _ (laneOf_lt x) hlane)]
  · rw [byteLane_readLanes_accessLanes _ _ _ hk, if_neg hn]

/-- An aligned read of storage is the model fault U1 exactly when a byte it covers is unwritten (R16, R39). -/
theorem readStored_fault_iff :
    readStored sz off value written s = .fault (.unwrittenRead off sz) ↔
      ∃ x, Covers sz off x ∧ storedByte s.block x = none := by
  have covered := lanesWritten_iff_coveredWritten ha hreg
  have some_unwritten : (∃ x, Covers sz off x ∧ storedByte s.block x = none) ↔ ¬ CoveredWritten s.block sz off := by
    simp [CoveredWritten, Option.isSome_iff_ne_none, and_assoc]
  rw [some_unwritten, ← covered]
  cases hw : lanesWritten (accessLanes sz off) written with
  | true => simp [readStored_written ha hw]
  | false => simp [readStored_unwritten ha hw]

end register

/-- Settles O19: the register of a KEY offset answers. -/
theorem keyReadsAnswerTheStoredBytes : Obligations.KeyReadsAnswerTheStoredBytes :=
  fun s _ o ha hw => readStored_answers ha (registerAt_key s.block o) hw

theorem exec_rdData_stored {s : State} (sz : Size) (o : BitVec 3) (hp : s.block.phase = .idle ∨ s.block.phase = .expand) :
    exec (.rdData sz o) s = readStored sz (dataOff o) s.block.data[dataIndex o] s.block.dataWritten[dataIndex o] s :=
  if_neg (by rcases hp with hp | hp <;> simp [hp])

theorem readTable_stored {s : State} (sz : Size) (off : Offset) (idx : Fin 26) (hp : s.block.phase ≠ .expand) :
    readTable sz off idx s = readStored sz off s.block.s[idx] s.block.sWritten[idx] s := if_neg hp

/-- Settles O20: idle or during EXPAND the register of a DATA offset answers. -/
theorem dataReadsAnswerTheStoredBytes : Obligations.DataReadsAnswerTheStoredBytes := by
  intro s sz o ha hw hp
  rw [exec_rdData_stored sz o hp]
  exact readStored_answers ha (registerAt_data s.block o) hw

/-- Settles O21: outside EXPAND the register of an S offset answers, in each of the three rows. -/
theorem tableReadsAnswerTheStoredBytes : Obligations.TableReadsAnswerTheStoredBytes := by
  intro s i sz off hi ha hw hp
  obtain ⟨idx, hlo, hidx, hexec⟩ := exec_of_readsTable hi
  rw [hexec, readTable_stored _ _ _ hp]
  exact readStored_answers ha (registerAt_table s.block hlo hidx) hw

/-- Settles O23: for each form that returns stored bytes, its register's read faults exactly so. -/
theorem readsOfUnwrittenBytesFault : Obligations.ReadsOfUnwrittenBytesFault := by
  rintro s i sz off (⟨o, rfl, rfl⟩ | ⟨hp, o, rfl, rfl⟩ | ⟨hp, hi⟩) ha
  · exact readStored_fault_iff ha (registerAt_key s.block o)
  · rw [exec_rdData_stored sz o hp]
    exact readStored_fault_iff ha (registerAt_data s.block o)
  · obtain ⟨idx, hlo, hidx, hexec⟩ := exec_of_readsTable hi
    rw [hexec, readTable_stored _ _ _ hp]
    exact readStored_fault_iff ha (registerAt_table s.block hlo hidx)

/-! ### Reads of storage in use -/

/-- A word of free bytes has one on each lane (R16). -/
theorem byteLane_drawWord (n : Nat) {k : Nat} (hk : k < 4) : byteLane (drawWord n) k = Config.drawByte (n + k) := by
  revert k
  rw [forall_lane]
  simp [drawWord]

/-- An aligned read of storage in use answers with free bytes on the lanes it covers (R95). -/
theorem readDrawn_answers {sz : Size} {off : Offset} (ha : aligned sz off = true) (s : State) :
    ∃ w, readDrawn sz off s = .next { s with trace := .readOkay w :: s.trace, drawIndex := s.drawIndex + 4 } ∧
      ∀ k < 4, byteLane w k = if CoversLane sz off k then Config.drawByte (s.drawIndex + k) else 0#8 := by
  refine ⟨_, guardAligned_of_aligned ha, fun k hk => ?_⟩
  rw [byteLane_readLanes_accessLanes _ _ _ hk, byteLane_drawWord _ hk]

/-- Settles O22: a read of S during EXPAND, and of DATA during ENCODE and DECODE, is of free bytes. -/
theorem readsOfStorageInUseAreFree : Obligations.ReadsOfStorageInUseAreFree := by
  rintro s i sz off (⟨hp, hi⟩ | ⟨hp, o, rfl, rfl⟩) ha
  · obtain ⟨idx, _, _, hexec⟩ := exec_of_readsTable hi
    rw [hexec, readTable, if_pos hp]
    exact readDrawn_answers ha s
  · rw [show exec (.rdData sz o) s = readDrawn sz (dataOff o) s from if_pos hp]
    exact readDrawn_answers ha s

end Sys2Proof.Machine
end

section
/-! PROOFS. The writes of STATUS, KEY, DATA and S (40_bus_access.md R92 to R94, R97), and that they are idempotent (R57). -/

namespace Sys2Proof.Machine

/-- Settles O27: a bit is kept where STATUS is written with 0, and cleared where with 1. -/
theorem statusWriteClearsItsBits : Obligations.StatusWriteClearsItsBits := by
  intro v s
  have bit (old new : Bool) : (old && !new) = if new then false else old := by cases new <;> simp
  rw [exec_wrStatus]
  simp only [respond, onBlock, clearStatus, bit]

/-- A store to the lanes of an access, in a register whose other bytes and all other registers stay, is what R54 and R72 ask. -/
theorem writeLeaves_of_register {before after : Block} {sz : Size} {off : Offset} {wdata old : Word} {written : Lanes}
    (ha : aligned sz off = true) (hold : RegisterAt before off old written)
    (hnew : RegisterAt after off (mergeLanes (accessLanes sz off) wdata old) (written ||| accessLanes sz off))
    (hother : ∀ x : Offset, x.toNat / 4 ≠ off.toNat / 4 → storedByte after x = storedByte before x) :
    WriteLeaves before after sz off wdata := by
  intro x
  by_cases hsame : x.toNat / 4 = off.toNat / 4
  · rw [hnew x hsame, hold x hsame, laneByte_store _ _ _ _ (laneOf_lt x)]
    simp only [covers_iff_lane ha hsame]
  · rw [hother x hsame, if_neg fun hx => hsame (covers_register ha hx).1]

/-- A register's own value and marks after a store to it. -/
theorem registerAt_of_eq {blk : Block} {off : Offset} {v v' : Word} {w w' : Lanes} (h : RegisterAt blk off v w) (hv : v = v')
    (hw : w = w') : RegisterAt blk off v' w' := hv ▸ hw ▸ h

theorem storeKey_writeLeaves (blk : Block) {sz : Size} {o : BitVec 4} (wdata : Word) (ha : aligned sz (keyOff o) = true) :
    WriteLeaves blk (storeKey (keyIndex o) (accessLanes sz (keyOff o)) wdata blk) sz (keyOff o) wdata := by
  refine writeLeaves_of_register ha (registerAt_key blk o)
    (registerAt_of_eq (registerAt_key _ o) (by simp) (by simp)) fun x hx => ?_
  rw [toNat_keyOff] at hx
  by_cases hkey : 0x10 ≤ x.toNat ∧ x.toNat < 0x20
  · have hne : (keyIndex o).val ≠ (x.toNat - 0x10) / 4 := by simp only [keyIndex]; omega
    rw [storedByte_key _ x _ (by omega) hkey.1 rfl, storedByte_key _ x _ (by omega) hkey.1 rfl]
    simp [Vector.getElem_set_ne, hne]
  · exact storedByte_outside_key hkey rfl rfl rfl rfl

theorem storeData_writeLeaves (blk : Block) {sz : Size} {o : BitVec 3} (wdata : Word) (ha : aligned sz (dataOff o) = true) :
    WriteLeaves blk (storeData (dataIndex o) (accessLanes sz (dataOff o)) wdata blk) sz (dataOff o) wdata := by
  refine writeLeaves_of_register ha (registerAt_data blk o)
    (registerAt_of_eq (registerAt_data _ o) (by simp) (by simp)) fun x hx => ?_
  rw [toNat_dataOff] at hx
  by_cases hdata : 0x20 ≤ x.toNat ∧ x.toNat < 0x28
  · have hne : (dataIndex o).val ≠ (x.toNat - 0x20) / 4 := by simp only [dataIndex]; omega
    rw [storedByte_data _ x _ (by omega) hdata.1 rfl, storedByte_data _ x _ (by omega) hdata.1 rfl]
    simp [Vector.getElem_set_ne, hne]
  · exact storedByte_outside_data hdata rfl rfl rfl rfl

theorem storeTable_writeLeaves (blk : Block) {sz : Size} {off : Offset} {idx : Fin 26} (wdata : Word)
    (ha : aligned sz off = true) (hlo : 0x40 ≤ off.toNat) (hidx : (off.toNat - 0x40) / 4 = idx) :
    WriteLeaves blk (storeTable idx (accessLanes sz off) wdata blk) sz off wdata := by
  refine writeLeaves_of_register ha (registerAt_table blk hlo hidx)
    (registerAt_of_eq (registerAt_table _ hlo hidx) (by simp) (by simp)) fun x hx => ?_
  by_cases htable : 0x40 ≤ x.toNat ∧ x.toNat < 0xA8
  · have hne : idx.val ≠ (x.toNat - 0x40) / 4 := by omega
    rw [storedByte_table _ x _ (by omega) htable.1 rfl, storedByte_table _ x _ (by omega) htable.1 rfl]
    simp [Vector.getElem_set_ne, hne]
  · by_cases hlow : 0x40 ≤ x.toNat
    · rw [storedByte_none _ x (by omega), storedByte_none _ x (by omega)]
    · exact storedByte_outside_table hlow rfl rfl rfl rfl

/-- Settles O28: the store to the register of a KEY offset. -/
theorem keyWritesStoreTheirLanes : Obligations.KeyWritesStoreTheirLanes := by
  intro sz o wdata s ha hb
  refine ⟨_, _, _, rfl, writeStored_idle ha hb, storeKey_writeLeaves s.block wdata ha, fun n hn => ?_⟩
  exact Vector.getElem_set_ne _ _ hn.symm

/-- Settles O29: the store to the register of a DATA offset. -/
theorem dataWritesStoreTheirLanes : Obligations.DataWritesStoreTheirLanes := by
  intro sz o wdata s ha hb
  refine ⟨_, _, _, rfl, writeStored_idle ha hb, storeData_writeLeaves s.block wdata ha, fun n hn => ?_⟩
  exact Vector.getElem_set_ne _ _ hn.symm

/-- The three rows of writes of S (R97). -/
def WritesTable (i : Instr) (sz : Size) (off : Offset) (wdata : Word) : Prop :=
  (∃ o, i = .wrSLow sz o wdata ∧ off = sLowOff o) ∨ (∃ o, i = .wrSMid sz o wdata ∧ off = sMidOff o) ∨
    (∃ o, i = .wrSHigh sz o wdata ∧ off = sHighOff o)

/-- A write of S by any of its rows is the store to the word its offset selects (R50, R97). -/
theorem exec_of_writesTable {i : Instr} {sz : Size} {off : Offset} {wdata : Word} (h : WritesTable i sz off wdata) :
    ∃ idx : Fin 26, 0x40 ≤ off.toNat ∧ (off.toNat - 0x40) / 4 = idx ∧
      ∀ s, exec i s = writeStored sz off (storeTable idx (accessLanes sz off) wdata) s := by
  rcases h with ⟨o, rfl, rfl⟩ | ⟨o, rfl, rfl⟩ | ⟨o, rfl, rfl⟩
  · exact ⟨sLowIndex o, (sLowOff_selects o).1, (sLowOff_selects o).2, fun _ => rfl⟩
  · exact ⟨sMidIndex o, (sMidOff_selects o).1, (sMidOff_selects o).2, fun _ => rfl⟩
  · exact ⟨sHighIndex o, (sHighOff_selects o).1, (sHighOff_selects o).2, fun _ => rfl⟩

/-- Settles O30: the store to the register of an S offset, in each of the three rows. -/
theorem tableWritesStoreTheirLanes : Obligations.TableWritesStoreTheirLanes := by
  intro i sz off wdata s hi ha hb
  obtain ⟨idx, hlo, hidx, hexec⟩ := exec_of_writesTable hi
  refine ⟨_, _, _, rfl, (hexec s).trans (writeStored_idle ha hb), storeTable_writeLeaves s.block wdata ha hlo hidx,
    fun n hn => ?_⟩
  exact Vector.getElem_set_ne _ _ fun e => hn (e.symm.trans hidx.symm)

/-! ### Repeating a write -/

theorem mergeLanes_mergeLanes (lanes : Lanes) (new old : Word) :
    mergeLanes lanes new (mergeLanes lanes new old) = mergeLanes lanes new old := by
  apply word_ext_lanes
  intro k hk
  simp only [byteLane_mergeLanes _ _ _ _ hk]
  split <;> rfl

theorem storeKey_storeKey (idx : Fin 4) (lanes : Lanes) (wdata : Word) (blk : Block) :
    storeKey idx lanes wdata (storeKey idx lanes wdata blk) = storeKey idx lanes wdata blk := by
  simp [storeKey, mergeLanes_mergeLanes, BitVec.or_assoc]

theorem storeData_storeData (idx : Fin 2) (lanes : Lanes) (wdata : Word) (blk : Block) :
    storeData idx lanes wdata (storeData idx lanes wdata blk) = storeData idx lanes wdata blk := by
  simp [storeData, mergeLanes_mergeLanes, BitVec.or_assoc]

theorem storeTable_storeTable (idx : Fin 26) (lanes : Lanes) (wdata : Word) (blk : Block) :
    storeTable idx lanes wdata (storeTable idx lanes wdata blk) = storeTable idx lanes wdata blk := by
  simp [storeTable, mergeLanes_mergeLanes, BitVec.or_assoc]

theorem clearStatus_clearStatus (v : Word) (blk : Block) : clearStatus v (clearStatus v blk) = clearStatus v blk := by
  simp [clearStatus]

/-- A write to storage, done twice, is done once: a store that keeps the block's phase and is idempotent. -/
theorem writeStored_twice {sz : Size} {off : Offset} {store : Block → Block} {s t u : State}
    (ht : writeStored sz off store s = .next t) (hu : writeStored sz off store t = .next u)
    (hbusy : ∀ blk, busy (store blk) = busy blk) (hstore : ∀ blk, store (store blk) = store blk) : u.block = t.block := by
  rcases writeStored_next ht with ⟨ha, rfl⟩ | ⟨ha, hb, rfl⟩ | ⟨ha, hb, rfl⟩
  · rcases writeStored_next hu with ⟨_, rfl⟩ | ⟨ha', _⟩ | ⟨ha', _⟩
    · rfl
    · simp [ha] at ha'
    · simp [ha] at ha'
  · rw [writeStored_busy ha (by exact hb)] at hu
    cases hu
    rfl
  · rw [writeStored_idle ha (by exact (hbusy _).trans hb)] at hu
    cases hu
    exact hstore _

/-- A CMD write that asks for no operation, done twice, is done once. -/
theorem issueCommand_twice {cmd : Option Command} {s t u : State}
    (ht : issueCommand cmd s = .next t) (hu : issueCommand cmd t = .next u) (hcmd : ∀ op, cmd ≠ some (.run op)) :
    u.block = t.block := by
  rcases issueCommand_next ht with ⟨hb, rfl⟩ | ⟨hb, rfl, rfl⟩ | ⟨hb, rfl, rfl⟩ | ⟨op, _, rfl, _⟩
  · rw [issueCommand_busy (by exact hb)] at hu
    cases hu
    rfl
  · rw [issueCommand_illegal (by exact hb)] at hu
    cases hu
    rfl
  · rw [issueCommand_nop (by exact hb)] at hu
    cases hu
    rfl
  · exact absurd rfl (hcmd op)

/-- A guarded write is no read. -/
theorem isRead_of_writesGuarded {i : Instr} (h : i.writesGuarded = true) : i.isRead = false := by
  cases i with
  | rdCmd | rdStatus | rdParam | rdKey | rdData | rdSLow | rdSMid | rdSHigh => cases h
  | _ => rfl

theorem isRead_of_operation {i : Instr} {op : Operation} (h : i.operation = some op) : i.isRead = false := by
  cases i with
  | rdCmd | rdStatus | rdParam | rdKey | rdData | rdSLow | rdSMid | rdSHigh => cases h
  | _ => rfl

/-- A read that goes on leaves the block and the inputs (R57). -/
theorem exec_read {i : Instr} {s t : State} (hi : i.isRead = true) (h : exec i s = .next t) :
    t.block = s.block ∧ t.inputs = s.inputs := by
  cases exec_effect h with
  | answered _ _ e | drew _ _ e _ => subst e; exact ⟨rfl, rfl⟩
  | cleared | storedKey | storedData | illegal => cases hi
  | dropped _ hg | storedTable _ _ _ _ hg => simp [isRead_of_writesGuarded hg] at hi
  | accepted _ op _ _ hop => simp [isRead_of_operation (operation_eq_some hop)] at hi

/-- Settles O25: a read only answers; of the other instructions, those of storage and of STATUS are idempotent, and so is a CMD write
that asks for no operation. -/
theorem readsChangeNothingAndStorageWritesAreIdempotent : Obligations.ReadsChangeNothingAndStorageWritesAreIdempotent := by
  refine ⟨fun i s t => exec_read, fun i s t u hi hop ht hu => ?_⟩
  cases i with
  | rdCmd | rdStatus | rdParam | rdKey | rdData | rdSLow | rdSMid | rdSHigh => cases hi
  | expand | encode | decode => cases hop
  | wrCmd c =>
    refine issueCommand_twice ht hu fun op hc => ?_
    simp [Instr.operation, hc] at hop
  | nop => exact issueCommand_twice (cmd := some .nop) ht hu nofun
  | wrStatus v =>
    cases ht
    cases hu
    exact clearStatus_clearStatus v _
  | wrKey => exact writeStored_twice ht hu (fun _ => rfl) (storeKey_storeKey _ _ _)
  | wrData => exact writeStored_twice ht hu (fun _ => rfl) (storeData_storeData _ _ _)
  | wrSLow | wrSMid | wrSHigh => exact writeStored_twice ht hu (fun _ => rfl) (storeTable_storeTable _ _ _)

end Sys2Proof.Machine
end

section
/-! PROOFS. Commands (40_bus_access.md R70, R103, R104), what every instruction and step answers (60_exceptions.md R166, R167), the
reset input, and the host's side of the bus (20_memory.md R51, 30_encoding.md R71). -/

namespace Sys2Proof.Machine

/-- A command row is the CMD write that names it (R70). -/
theorem exec_command (cmd : Command) (s : State) : exec cmd.instr s = issueCommand (some cmd) s :=
  match cmd with
  | .nop => rfl
  | .run .expand => rfl
  | .run .encode => rfl
  | .run .decode => rfl

/-- Settles O10: the step lemma of a transaction that decodes. -/
theorem stepRunsTheDecodedInstruction : Obligations.StepRunsTheDecodedInstruction :=
  fun _ _ _ _ _ => step_bus_ok

/-- Settles O11: the row of a legal word and the write that carries it are both the issue of the command it names. -/
theorem commandWordsRunAsTheWdataOfWrCmd : Obligations.CommandWordsRunAsTheWdataOfWrCmd := by
  intro s c i hi
  have same (s : State) : exec (.wrCmd c) s = exec i s := by
    cases hc : decodeCommand c with
    | none => simp [decode, hc] at hi
    | some cmd =>
      simp only [decode, hc, Except.ok.injEq] at hi
      rw [exec_wrCmd, hc, ← hi, exec_command]
  exact ⟨same s, rfl, fun rest hin => (step_bus_ok hin rfl).trans (same _)⟩

/-- A word above 3 names no command (R75). -/
theorem decodeCommand_eq_none {c : Word} (h : 3 < c.toNat) : decodeCommand c = none := by
  have ne {w : Word} (hw : w.toNat ≤ 3) : c ≠ w := fun e => by rw [e] at h; omega
  simp [decodeCommand, ne]

/-- Settles O32: while busy the word is not looked at; else each word is issued as the command it names, or as none. -/
theorem commandWriteDispatches : Obligations.CommandWriteDispatches := by
  refine fun c s => ⟨issueCommand_busy, fun hb => ⟨?_, ?_, ?_, ?_, fun h => ?_⟩⟩
  · rintro rfl
    exact issueCommand_nop hb
  · rintro rfl hkey
    exact exec_expand_accepted hb hkey
  · rintro rfl hdata htable
    exact exec_encode_accepted hb hdata htable
  · rintro rfl hdata htable
    exact exec_decode_accepted hb hdata htable
  · rw [exec_wrCmd, decodeCommand_eq_none h]
    exact issueCommand_illegal hb

/-- Settles O34: each operation with its inputs written is accepted, and its start is what `accept` leaves. -/
theorem operationsAreAccepted : Obligations.OperationsAreAccepted :=
  fun _ hb => ⟨exec_expand_accepted hb, exec_encode_accepted hb, exec_decode_accepted hb⟩

/-! ### Misaligned forms -/

/-- Settles O9: the access of CMD and STATUS is aligned, and every other access is guarded. -/
theorem misalignedFormsAreBusErrors : Obligations.MisalignedFormsAreBusErrors := by
  intro i sz off s hacc ha
  cases i <;> cases hacc
  case rdCmd | wrCmd | rdStatus | wrStatus => cases ha
  case rdData o =>
    by_cases hp : s.block.phase = .encode ∨ s.block.phase = .decode
    · exact (if_pos hp).trans (guardAligned_of_misaligned ha)
    · exact (if_neg hp).trans (guardAligned_of_misaligned ha)
  case rdSLow | rdSMid | rdSHigh =>
    by_cases hp : s.block.phase = .expand
    · exact (if_pos hp).trans (guardAligned_of_misaligned ha)
    · exact (if_neg hp).trans (guardAligned_of_misaligned ha)
  all_goals exact guardAligned_of_misaligned ha

/-! ### No refusal -/

/-- An outcome is a next state or a fault. -/
def NotRefused (o : Host.Outcome State Fault Refusal) : Prop := ∀ x : Refusal, o ≠ .refused x

theorem notRefused_next (s : State) : NotRefused (.next s) := nofun

theorem notRefused_fault (f : Fault) : NotRefused (.fault f) := nofun

theorem notRefused_ite {p : Prop} [Decidable p] {x y : Host.Outcome State Fault Refusal} (hx : NotRefused x)
    (hy : NotRefused y) : NotRefused (if p then x else y) := by
  split <;> assumption

theorem notRefused_guardAligned (sz : Size) (off : Offset) (s : State) {result : Host.Outcome State Fault Refusal}
    (h : NotRefused result) : NotRefused (guardAligned sz off s result) :=
  notRefused_ite h (notRefused_next _)

theorem notRefused_readStored (sz : Size) (off : Offset) (value : Word) (written : Lanes) (s : State) :
    NotRefused (readStored sz off value written s) :=
  notRefused_guardAligned _ _ _ (notRefused_ite (notRefused_next _) (notRefused_fault _))

theorem notRefused_readTable (sz : Size) (off : Offset) (idx : Fin 26) (s : State) : NotRefused (readTable sz off idx s) :=
  notRefused_ite (notRefused_guardAligned _ _ _ (notRefused_next _)) (notRefused_readStored _ _ _ _ _)

theorem notRefused_issueCommand (cmd : Option Command) (s : State) : NotRefused (issueCommand cmd s) := by
  refine notRefused_ite (notRefused_next _) ?_
  match cmd with
  | none => exact notRefused_next _
  | some .nop => exact notRefused_next _
  | some (.run op) => exact notRefused_ite (notRefused_next _) (notRefused_fault _)

theorem notRefused_exec (i : Instr) (s : State) : NotRefused (exec i s) := by
  cases i with
  | rdCmd => exact exec_rdCmd s ▸ notRefused_next _
  | rdStatus => exact exec_rdStatus s ▸ notRefused_next _
  | rdParam | wrKey | wrData | wrSLow | wrSMid | wrSHigh =>
    exact notRefused_guardAligned _ _ _ (notRefused_next _)
  | wrStatus => exact notRefused_next _
  | rdKey => exact notRefused_readStored _ _ _ _ _
  | rdData =>
    exact notRefused_ite (notRefused_guardAligned _ _ _ (notRefused_next _)) (notRefused_readStored _ _ _ _ _)
  | rdSLow | rdSMid | rdSHigh => exact notRefused_readTable _ _ _ _
  | wrCmd c => exact notRefused_issueCommand (decodeCommand c) s
  | nop => exact notRefused_issueCommand (some .nop) s
  | expand => exact notRefused_issueCommand (some (.run .expand)) s
  | encode => exact notRefused_issueCommand (some (.run .encode)) s
  | decode => exact notRefused_issueCommand (some (.run .decode)) s

/-- A step goes on, or is an instruction read from the bus. -/
theorem step_next_or_exec (s : State) :
    (∃ t, step s = .next t) ∨
      ∃ h wdata rest i, s.inputs = .bus h wdata :: rest ∧ decodeBus h wdata = .ok i ∧
        step s = exec i { s with inputs := rest } := by
  rcases hin : s.inputs with _ | ⟨⟨h, wdata⟩ | _ | _, rest⟩
  · exact .inl ⟨_, step_nil hin⟩
  · cases hd : decodeBus h wdata with
    | ok i => exact .inr ⟨h, wdata, rest, i, rfl, hd, step_bus_ok hin hd⟩
    | error kind => exact .inl ⟨_, step_bus_error hin hd⟩
  · exact .inl ⟨_, step_engine hin⟩
  · exact .inl ⟨_, step_reset hin⟩

/-- Settles O13: no meaning refuses, and of the steps only a transaction's meaning can stop. -/
theorem nothingIsRefused : Obligations.NothingIsRefused := by
  refine ⟨notRefused_exec, fun s x h => ?_, fun s f h => ?_⟩
  · rcases step_next_or_exec s with ⟨t, e⟩ | ⟨_, _, rest, i, _, _, e⟩ <;> rw [e] at h
    · cases h
    · exact notRefused_exec i _ x h
  · rcases step_next_or_exec s with ⟨t, e⟩ | ⟨hd, wdata, rest, i, hin, hdec, e⟩ <;> rw [e] at h
    · cases h
    · exact ⟨hd, wdata, rest, i, hin, hdec, h⟩

/-! ### Reset -/

/-- Settles O16: the reset input puts the reset block in place, whose marks are clear. -/
theorem resetInputAbandonsTheOperation : Obligations.ResetInputAbandonsTheOperation :=
  fun _ _ hin => ⟨_, step_reset hin, rfl, rfl, rfl, rfl, show statusWord Block.reset = 0#32 from rfl,
    storedByte_of_unwritten rfl rfl rfl⟩

/-! ### The host's side -/

/-- Settles O59: BASE is a whole number of pages, so that the low 8 bits of a system address are the offset's. -/
theorem systemAddressesReachTheirOffsets : Obligations.SystemAddressesReachTheirOffsets := by
  refine ⟨fun off => ⟨?_, fun sz => ?_⟩, Nat.mul_mod_right 256 _, fun a b h => ?_⟩
  · apply BitVec.eq_of_toNat_eq
    simp only [offsetOf, systemAddress, Config.base, BitVec.toNat_ofNat]
    omega
  · rw [aligned, beq_iff_eq, systemAddress, Config.base]
    cases sz <;> simp only [Size.bytes] <;> omega
  · apply BitVec.eq_of_toNat_eq
    simpa [offsetOf] using h

/-- The strobes of an aligned access are one of the seven runs of R71. -/
theorem strobeSize_accessLanes {sz : Size} {off : Offset} (ha : aligned sz off = true) :
    strobeSize (accessLanes sz off) = sz.code := by
  have runs : ∀ lane < 4, lane % sz.bytes = 0 → strobeSize (lowLanes sz <<< lane) = sz.code := by cases sz <;> decide
  exact runs _ (laneOf_lt off) ((aligned_iff sz off).1 ha)

/-- Settles O60: an aligned access's strobes give its size; others give the reserved code, a bus error whatever the offset. -/
theorem strobesGiveTheSizeCode : Obligations.StrobesGiveTheSizeCode := by
  refine ⟨fun sz off => strobeSize_accessLanes, fun addr strobes wdata s rest hs hin => ?_⟩
  rw [strobedWrite, strobeSize_eq_three hs] at hin
  have hsz := headerSz_mkHeader_three true (offsetOf addr)
  have hoff : headerOff (mkHeader true 3#2 (offsetOf addr)) = offsetOf addr := by
    generalize offsetOf addr = off
    revert off
    decide
  rw [step_bus_error hin (decodeBus_rsvdSize_iff.2 hsz), hsz, hoff]
  rfl

/-- Settles O4: the decoder evaluated at each of the words. -/
theorem tableWordsDecodeToTheirRows : Obligations.TableWordsDecodeToTheirRows := by
  unfold Obligations.TableWordsDecodeToTheirRows
  decide

end Sys2Proof.Machine
end

section
/-! PROOFS. What a host can see (R37, U4): transactions show the host view only, and hidden values without meaning never reach it. -/

namespace Sys2Proof.Machine

/-! ### Equal host views -/

/-- Two blocks show a host the same, field by field. -/
structure SameHostView (x y : Block) : Prop where
  phase : x.phase = y.phase
  done : x.done = y.done
  errCmd : x.errCmd = y.errCmd
  errBusy : x.errBusy = y.errBusy
  key : writtenPart x.keyWritten x.key = writtenPart y.keyWritten y.key
  keyWritten : x.keyWritten = y.keyWritten
  data : ¬ (x.phase = .encode ∨ x.phase = .decode) →
    writtenPart x.dataWritten x.data = writtenPart y.dataWritten y.data ∧ x.dataWritten = y.dataWritten
  table : x.phase ≠ .expand → writtenPart x.sWritten x.s = writtenPart y.sWritten y.s ∧ x.sWritten = y.sWritten

theorem hostView_eq_iff {x y : Block} : hostView x = hostView y ↔ SameHostView x y := by
  constructor
  · intro h
    simp only [hostView, HostView.mk.injEq] at h
    obtain ⟨hphase, hdone, hcmd, hbusy, hkey, hkw, hdata, htable⟩ := h
    refine ⟨hphase, hdone, hcmd, hbusy, hkey, hkw, fun hp => ?_, fun hp => ?_⟩
    · rwa [if_neg hp, if_neg (hphase ▸ hp), Option.some_inj, Prod.mk_inj] at hdata
    · rwa [if_neg hp, if_neg (hphase ▸ hp), Option.some_inj, Prod.mk_inj] at htable
  · rintro ⟨hphase, hdone, hcmd, hbusy, hkey, hkw, hdata, htable⟩
    simp only [hostView, HostView.mk.injEq]
    refine ⟨hphase, hdone, hcmd, hbusy, hkey, hkw, ?_, ?_⟩
    · rw [← hphase]
      split
      next => rfl
      next hp => rw [(hdata hp).1, (hdata hp).2]
    · rw [← hphase]
      split
      next => rfl
      next hp => rw [(htable hp).1, (htable hp).2]

/-! ### One register behind equal written parts -/

section
variable {n : Nat} {written written' : Vector Lanes n} {values values' : Vector Word n}
  (h : writtenPart written values = writtenPart written' values') (idx : Fin n)
include h

/-- Where the written parts agree, so do those of each register. -/
theorem readLanes_eq_of_writtenPart :
    readLanes written[idx] values[idx] = readLanes written'[idx] values'[idx] := by
  simpa only [Fin.getElem_fin, getElem_writtenPart] using congrArg (·[idx]) h

/-- A store keeps the written parts and the marks equal. -/
theorem writtenPart_store_eq (hmarks : written = written') (lanes : Lanes) (new : Word) :
    writtenPart (written.set idx (written[idx] ||| lanes)) (values.set idx (mergeLanes lanes new values[idx])) =
        writtenPart (written'.set idx (written'[idx] ||| lanes)) (values'.set idx (mergeLanes lanes new values'[idx])) ∧
      written.set idx (written[idx] ||| lanes) = written'.set idx (written'[idx] ||| lanes) := by
  subst hmarks
  exact ⟨by simp only [Fin.getElem_fin, writtenPart_set, h], rfl⟩

end

section view
variable {x y : Block} (h : SameHostView x y)
include h

theorem SameHostView.busy : busy x = busy y := by rw [Machine.busy, h.phase, Machine.busy]

theorem SameHostView.statusWord : statusWord x = statusWord y := by
  rw [Machine.statusWord, h.busy, h.done, h.errCmd, h.errBusy, Machine.statusWord]

theorem SameHostView.setErrBusy : SameHostView (setErrBusy x) (setErrBusy y) := { h with errBusy := rfl }

theorem SameHostView.setErrCmd : SameHostView (setErrCmd x) (setErrCmd y) := { h with errCmd := rfl }

theorem SameHostView.clearStatus (v : Word) : SameHostView (clearStatus v x) (clearStatus v y) :=
  { h with
    done := by rw [clearStatus_done, h.done, clearStatus_done]
    errCmd := by rw [clearStatus_errCmd, h.errCmd, clearStatus_errCmd]
    errBusy := by rw [clearStatus_errBusy, h.errBusy, clearStatus_errBusy] }

theorem SameHostView.storeKey (idx : Fin 4) (lanes : Lanes) (wdata : Word) :
    SameHostView (storeKey idx lanes wdata x) (storeKey idx lanes wdata y) :=
  { h with
    key := (writtenPart_store_eq h.key idx h.keyWritten lanes wdata).1
    keyWritten := (writtenPart_store_eq h.key idx h.keyWritten lanes wdata).2 }

theorem SameHostView.storeData (idx : Fin 2) (lanes : Lanes) (wdata : Word) :
    SameHostView (storeData idx lanes wdata x) (storeData idx lanes wdata y) :=
  { h with data := fun hp => writtenPart_store_eq (h.data hp).1 idx (h.data hp).2 lanes wdata }

theorem SameHostView.storeTable (idx : Fin 26) (lanes : Lanes) (wdata : Word) :
    SameHostView (storeTable idx lanes wdata x) (storeTable idx lanes wdata y) :=
  { h with table := fun hp => writtenPart_store_eq (h.table hp).1 idx (h.table hp).2 lanes wdata }

section idle
variable (hp : x.phase = .idle)
include hp

theorem SameHostView.inputsReady_idle (op : Operation) : inputsReady op x = inputsReady op y := by
  obtain ⟨_, hdw⟩ := h.data (by simp [hp])
  obtain ⟨_, hsw⟩ := h.table (by simp [hp])
  cases op <;> simp only [inputsReady, keyReady, dataReady, tableReady, h.keyWritten, hdw, hsw]

theorem SameHostView.accept (op : Operation) : SameHostView (accept op x) (accept op y) := by
  have hdata := h.data (by simp [hp])
  have htable := h.table (by simp [hp])
  cases op <;> exact { h with phase := rfl, done := rfl, data := fun _ => hdata, table := fun _ => htable }

end idle

end view

/-! ### Transactions -/

section answers
variable {x y : State} (h : SameView x y)
include h

theorem SameView.blocks : SameHostView x.block y.block := hostView_eq_iff.1 h.view

theorem SameView.respond (r : Response) : SameView (respond r x) (respond r y) :=
  { h with trace := congrArg (r :: ·) h.trace }

theorem SameView.onBlock {f : Block → Block} (hf : SameHostView (f x.block) (f y.block)) :
    SameView (onBlock f x) (onBlock f y) :=
  { h with view := hostView_eq_iff.2 hf }

theorem SameView.guardAligned (sz : Size) (off : Offset) {o o' : Host.Outcome State Fault Refusal}
    (ho : OutcomesRelated SameView o o') :
    OutcomesRelated SameView (guardAligned sz off x o) (guardAligned sz off y o') := by
  cases ha : aligned sz off with
  | true => rwa [guardAligned_of_aligned ha, guardAligned_of_aligned ha]
  | false =>
    rw [guardAligned_of_misaligned ha, guardAligned_of_misaligned ha]
    exact h.respond _

theorem SameView.readConstant (sz : Size) (off : Offset) {v w : Word} (hv : v = w) :
    OutcomesRelated SameView (readConstant sz off v x) (readConstant sz off w y) :=
  h.guardAligned sz off (hv ▸ h.respond _)

theorem SameView.readStored (sz : Size) (off : Offset) {v w : Word} {marks marks' : Lanes} (hm : marks = marks')
    (hv : readLanes marks v = readLanes marks' w) :
    OutcomesRelated SameView (readStored sz off v marks x) (readStored sz off w marks' y) := by
  subst hm
  refine h.guardAligned sz off ?_
  split
  next hw =>
    rw [readLanes_of_written v hw, readLanes_of_written w hw, hv]
    exact h.respond _
  next => rfl

theorem SameView.readDrawn (sz : Size) (off : Offset) :
    OutcomesRelated SameView (readDrawn sz off x) (readDrawn sz off y) := by
  refine h.guardAligned sz off ?_
  rw [h.drawIndex]
  exact { h with trace := congrArg (_ :: ·) h.trace, drawIndex := rfl }

theorem SameView.readTable (sz : Size) (off : Offset) (idx : Fin 26) :
    OutcomesRelated SameView (readTable sz off idx x) (readTable sz off idx y) := by
  rw [Machine.readTable, Machine.readTable, ← h.blocks.phase]
  split
  next => exact h.readDrawn sz off
  next hp =>
    obtain ⟨hs, hsw⟩ := h.blocks.table hp
    exact h.readStored sz off (by rw [hsw]) (readLanes_eq_of_writtenPart hs idx)

theorem SameView.dropWrite : SameView (dropWrite x) (dropWrite y) := (h.onBlock h.blocks.setErrBusy).respond _

theorem SameView.writeStored (sz : Size) (off : Offset) {store : Block → Block}
    (hstore : SameHostView (store x.block) (store y.block)) :
    OutcomesRelated SameView (writeStored sz off store x) (writeStored sz off store y) := by
  refine h.guardAligned sz off ?_
  rw [← h.blocks.busy]
  cases busy x.block
  · exact (h.onBlock hstore).respond _
  · exact h.dropWrite

theorem SameView.issueCommand (cmd : Option Command) :
    OutcomesRelated SameView (issueCommand cmd x) (issueCommand cmd y) := by
  have hbusy := h.blocks.busy
  cases hb : busy x.block with
  | true =>
    rw [issueCommand_busy hb, issueCommand_busy (hbusy ▸ hb)]
    exact h.dropWrite
  | false =>
    have hb' : busy y.block = false := hbusy ▸ hb
    match cmd with
    | none =>
      rw [issueCommand_illegal hb, issueCommand_illegal hb']
      exact (h.onBlock h.blocks.setErrCmd).respond _
    | some .nop =>
      rw [issueCommand_nop hb, issueCommand_nop hb']
      exact h.respond _
    | some (.run op) =>
      have hidle := busy_false_iff.1 hb
      have hready := h.blocks.inputsReady_idle hidle op
      rw [issueCommand_run hb, issueCommand_run hb']
      cases hr : inputsReady op x.block with
      | true =>
        rw [acceptOperation_ready hr, acceptOperation_ready (hready ▸ hr)]
        exact (h.onBlock (h.blocks.accept hidle op)).respond _
      | false =>
        rw [acceptOperation_not_ready hr, acceptOperation_not_ready (hready ▸ hr)]
        rfl

/-- An instruction answers two machines with the same view alike. -/
theorem SameView.exec (i : Instr) : OutcomesRelated SameView (exec i x) (exec i y) := by
  have blocks := h.blocks
  cases i with
  | rdCmd => exact h.readConstant .word 0x00#8 rfl
  | rdStatus => exact h.readConstant .word 0x04#8 blocks.statusWord
  | rdParam sz o => exact h.readConstant _ _ rfl
  | rdKey sz o =>
    exact h.readStored _ _ (by rw [blocks.keyWritten]) (readLanes_eq_of_writtenPart blocks.key (keyIndex o))
  | rdData sz o =>
    rw [Machine.exec, Machine.exec, execRdData, execRdData, ← blocks.phase]
    split
    next => exact h.readDrawn _ _
    next hp =>
      obtain ⟨hdata, hdw⟩ := blocks.data hp
      exact h.readStored _ _ (by rw [hdw]) (readLanes_eq_of_writtenPart hdata (dataIndex o))
  | rdSLow | rdSMid | rdSHigh => exact h.readTable _ _ _
  | wrStatus v => exact (h.onBlock (blocks.clearStatus v)).respond _
  | wrKey => exact h.writeStored _ _ (blocks.storeKey _ _ _)
  | wrData => exact h.writeStored _ _ (blocks.storeData _ _ _)
  | wrSLow | wrSMid | wrSHigh => exact h.writeStored _ _ (blocks.storeTable _ _ _)
  | wrCmd c => exact h.issueCommand (decodeCommand c)
  | nop => exact h.issueCommand (some .nop)
  | expand => exact h.issueCommand (some (.run .expand))
  | encode => exact h.issueCommand (some (.run .encode))
  | decode => exact h.issueCommand (some (.run .decode))

end answers

/-- Settles O57: each shared operation decides and answers by the view alone, and keeps views equal. -/
theorem transactionsShowTheHostViewOnly : Obligations.TransactionsShowTheHostViewOnly :=
  fun i _ _ h => h.exec i

end Sys2Proof.Machine
end

section
/-! PROOFS. Hidden values without meaning never reach the host (R37, U4): over every step, micro-steps included. -/

namespace Sys2Proof.Machine

/-- Two blocks that show the same and whose running operation stands at the same point with the same values. -/
structure Alike (x y : Block) : Prop where
  view : SameHostView x y
  progress : SameProgress x y

theorem sameProgress_of_idle {x y : Block} (hp : x.phase = .idle) : SameProgress x y := by
  simp only [SameProgress, hp]

section phases
variable {x y : Block}

theorem sameProgress_expand_iff (hp : x.phase = .expand) :
    SameProgress x y ↔ x.m = y.m ∧ x.l = y.l ∧ (∀ n < x.m, tableWord x.s n = tableWord y.s n) ∧
      (26 ≤ x.m → mixOf x = mixOf y ∧ x.k = y.k) := by
  simp only [SameProgress, hp]

theorem sameProgress_encode_iff (hp : x.phase = .encode) :
    SameProgress x y ↔ x.s = y.s ∧ x.data = y.data ∧ x.r = y.r ∧ (x.r ≠ 0 → x.a = y.a ∧ x.b = y.b) := by
  simp only [SameProgress, hp]

theorem sameProgress_decode_iff (hp : x.phase = .decode) :
    SameProgress x y ↔ x.s = y.s ∧ x.r = y.r ∧ x.a = y.a ∧ x.b = y.b := by
  simp only [SameProgress, hp]

theorem sameProgress_of_expand (hp : x.phase = .expand) (hm : x.m = y.m) (hl : x.l = y.l)
    (hbelow : ∀ n < x.m, tableWord x.s n = tableWord y.s n) (hmix : 26 ≤ x.m → mixOf x = mixOf y ∧ x.k = y.k) :
    SameProgress x y := (sameProgress_expand_iff hp).2 ⟨hm, hl, hbelow, hmix⟩

theorem sameProgress_of_encode (hp : x.phase = .encode) (hs : x.s = y.s) (hdata : x.data = y.data) (hr : x.r = y.r)
    (hab : x.r ≠ 0 → x.a = y.a ∧ x.b = y.b) : SameProgress x y := (sameProgress_encode_iff hp).2 ⟨hs, hdata, hr, hab⟩

theorem sameProgress_of_decode (hp : x.phase = .decode) (hs : x.s = y.s) (hr : x.r = y.r) (ha : x.a = y.a) (hb : x.b = y.b) :
    SameProgress x y := (sameProgress_decode_iff hp).2 ⟨hs, hr, ha, hb⟩

end phases

/-! ### Micro-steps -/

/-- Two tables that agree below `m` agree below `m + 1` after micro-step `m` (R121). -/
theorem tableWord_initOne_congr {s t : Vector Word 26} {m n : Nat} (hm : m < 26) (hn : n < m + 1)
    (h : ∀ n < m, tableWord s n = tableWord t n) : tableWord (initOne s m) n = tableWord (initOne t m) n := by
  rw [tableWord_initOne _ _ (by omega), tableWord_initOne _ _ (by omega)]
  split
  next => exact initWord_congr_below h
  next hne => exact h n (by omega)

section micro
variable {x y : Block} (h : Alike x y)
include h

theorem Alike.expandMicro (hp : x.phase = .expand) : Alike (expandMicro x) (expandMicro y) := by
  have view := h.view
  obtain ⟨hm, hl, hbelow, hmix⟩ := (sameProgress_expand_iff hp).1 h.progress
  have table_free {s t : Vector Word 26} {ws wt : Vector Lanes 26} : x.phase ≠ .expand →
      writtenPart ws s = writtenPart wt t ∧ ws = wt := fun hne => absurd hp hne
  rcases expandMicro_cases x with ⟨hx, e⟩ | ⟨hx, e⟩ | ⟨hx, hk, e⟩ | ⟨hx, hk, e⟩
  · rw [e, expandMicro_init (hm ▸ hx), ← hm]
    exact ⟨{ view with table := table_free }, sameProgress_of_expand hp rfl hl
      (fun n hn => tableWord_initOne_congr (Nat.lt_of_succ_lt hx) hn hbelow) fun h26 => absurd h26 (Nat.not_le.2 hx)⟩
  · have htable : initOne x.s 25 = initOne y.s 25 :=
      table_ext fun n hn => tableWord_initOne_congr (by decide) hn (hx ▸ hbelow)
    rw [e, expandMicro_lastInit (hm ▸ hx), htable, hl]
    exact ⟨{ view with table := table_free }, sameProgress_of_expand hp rfl rfl (fun _ _ => rfl) fun _ => ⟨rfl, rfl⟩⟩
  · obtain ⟨hmixOf, hk'⟩ := hmix hx
    rw [e, expandMicro_mix (hm ▸ hx) (hk' ▸ hk), hmixOf, hk']
    exact ⟨{ view with table := table_free }, sameProgress_of_expand hp hm rfl (fun _ _ => rfl) fun _ => ⟨rfl, rfl⟩⟩
  · obtain ⟨hmixOf, hk'⟩ := hmix hx
    rw [e, expandMicro_lastMix (hm ▸ hx) (hk' ▸ hk), hmixOf, hk']
    have hdata := view.data (by simp [hp])
    exact ⟨{ view with phase := rfl, done := rfl, data := fun _ => hdata, table := fun _ => ⟨rfl, rfl⟩ },
      sameProgress_of_idle rfl⟩

theorem Alike.encodeMicro (hp : x.phase = .encode) : Alike (encodeMicro x) (encodeMicro y) := by
  have view := h.view
  obtain ⟨hs, hdata, hr, hab⟩ := (sameProgress_encode_iff hp).1 h.progress
  rcases encodeMicro_cases x with ⟨hx, e⟩ | ⟨hx, hlt, e⟩ | ⟨hx, e⟩
  · have hwhite : whiten x.s (dataPair x) = whiten y.s (dataPair y) := by rw [hs, dataPair, hdata, dataPair]
    rw [e, encodeMicro_whitening (hr ▸ hx), hwhite]
    exact ⟨{ view with }, sameProgress_of_encode hp hs hdata rfl fun _ => ⟨rfl, rfl⟩⟩
  · obtain ⟨ha, hb⟩ := hab hx
    have hround : encodeRound x.s x.r (x.a, x.b) = encodeRound y.s y.r (y.a, y.b) := by rw [hs, hr, ha, hb]
    rw [e, encodeMicro_round (hr ▸ hx) (hr ▸ hlt), hround]
    exact ⟨{ view with }, sameProgress_of_encode hp hs hdata (congrArg (· + 1) hr) fun _ => ⟨rfl, rfl⟩⟩
  · obtain ⟨ha, hb⟩ := hab (by omega)
    have hround : encodeRound x.s x.r (x.a, x.b) = encodeRound y.s y.r (y.a, y.b) := by rw [hs, hr, ha, hb]
    have htable := view.table (by simp [hp])
    rw [e, encodeMicro_last (hr ▸ hx), hround]
    exact ⟨{ view with phase := rfl, done := rfl, data := fun _ => ⟨rfl, rfl⟩, table := fun _ => htable },
      sameProgress_of_idle rfl⟩

theorem Alike.decodeMicro (hp : x.phase = .decode) : Alike (decodeMicro x) (decodeMicro y) := by
  have view := h.view
  obtain ⟨hs, hr, ha, hb⟩ := (sameProgress_decode_iff hp).1 h.progress
  rcases decodeMicro_cases x with ⟨hx, e⟩ | ⟨hx, e⟩
  · have hwhite : unwhiten x.s (x.a, x.b) = unwhiten y.s (y.a, y.b) := by rw [hs, ha, hb]
    have htable := view.table (by simp [hp])
    rw [e, decodeMicro_unwhitening (hr ▸ hx), hwhite]
    exact ⟨{ view with phase := rfl, done := rfl, data := fun _ => ⟨rfl, rfl⟩, table := fun _ => htable },
      sameProgress_of_idle rfl⟩
  · have hround : decodeRound x.s x.r (x.a, x.b) = decodeRound y.s y.r (y.a, y.b) := by rw [hs, hr, ha, hb]
    rw [e, decodeMicro_round (hr ▸ hx), hround]
    exact ⟨{ view with }, sameProgress_of_decode hp hs (congrArg (· - 1) hr) rfl rfl⟩

/-- A micro-step takes two blocks alike to two blocks alike. -/
theorem Alike.engineStep : Alike (engineStep x) (engineStep y) := by
  have hphase := h.view.phase
  cases hp : x.phase with
  | idle => rwa [engineStep_idle hp, engineStep_idle (hphase ▸ hp)]
  | expand => rw [engineStep_expand hp, engineStep_expand (hphase ▸ hp)]; exact h.expandMicro hp
  | encode => rw [engineStep_encode hp, engineStep_encode (hphase ▸ hp)]; exact h.encodeMicro hp
  | decode => rw [engineStep_decode hp, engineStep_decode (hphase ▸ hp)]; exact h.decodeMicro hp

end micro

/-! ### Instructions -/

/-- Registers written whole are in the view whole. -/
theorem register_eq {n : Nat} {marks marks' : Vector Lanes n} {values values' : Vector Word n}
    (h : writtenPart marks values = writtenPart marks' values') (hx : marks.toList.all (· == allLanes) = true)
    (hy : marks'.toList.all (· == allLanes) = true) : values = values' := by
  rw [← writtenPart_all _ values hx, h, writtenPart_all _ values' hy]

/-- While busy an instruction can set and clear status bits only (R99). -/
theorem exec_flags_of_busy {i : Instr} {s t : State} (h : exec i s = .next t) (hb : busy s.block = true) :
    ∃ d c e, t.block = withFlags d c e s.block := by
  rcases exec_flags_stores_or_accepts h with hflags | ⟨hidle, _⟩ | ⟨hidle, _⟩
  · exact hflags
  · simp [hb] at hidle
  · simp [hb] at hidle

/-- Operations accepted with all their inputs written start alike: the inputs are in the view. -/
theorem sameProgress_accept {x y : Block} (h : SameHostView x y) (hp : x.phase = .idle) {op : Operation}
    (hx : inputsReady op x = true) (hy : inputsReady op y = true) : SameProgress (accept op x) (accept op y) := by
  obtain ⟨hdata, _⟩ := h.data (by simp [hp])
  obtain ⟨htable, _⟩ := h.table (by simp [hp])
  cases op with
  | expand =>
    exact sameProgress_of_expand rfl rfl (register_eq h.key hx hy) (fun _ hn => absurd hn (Nat.not_lt_zero _))
      fun h26 => absurd h26 (Nat.not_succ_le_zero _)
  | encode =>
    simp only [inputsReady, Bool.and_eq_true] at hx hy
    exact sameProgress_of_encode rfl (register_eq htable hx.2 hy.2) (register_eq hdata hx.1 hy.1) rfl
      fun hne => absurd rfl hne
  | decode =>
    simp only [inputsReady, Bool.and_eq_true] at hx hy
    have hdata : x.data = y.data := register_eq hdata hx.1 hy.1
    exact sameProgress_of_decode rfl (register_eq htable hx.2 hy.2) rfl (congrArg (·[0]) hdata) (congrArg (·[1]) hdata)

/-- An instruction keeps equal progress, the views after it being equal: an operation in progress is not touched, and one it starts
is started in both. -/
theorem sameProgress_exec {i : Instr} {x y t u : State} (h : Alike x.block y.block) (ht : exec i x = .next t)
    (hu : exec i y = .next u) (hview : SameHostView t.block u.block) : SameProgress t.block u.block := by
  cases hb : busy x.block with
  | true =>
    have hb' : busy y.block = true := h.view.busy ▸ hb
    obtain ⟨_, _, _, et⟩ := exec_flags_of_busy ht hb
    obtain ⟨_, _, _, eu⟩ := exec_flags_of_busy hu hb'
    rw [et, eu]
    exact h.progress
  | false =>
    have hidle := busy_false_iff.1 hb
    rcases exec_phase_eq_or_accepts ht with hphase | ⟨op, hop, _, hx, et⟩
    · exact sameProgress_of_idle (hphase.trans hidle)
    · have hbusy : busy u.block = true := by rw [← hview.busy, et, busy_accept]
      obtain ⟨op', hop', hy, eu⟩ := exec_accepts_of_starts hu (h.view.busy ▸ hb) hbusy
      obtain rfl : op = op' := Option.some_inj.1 (hop.symm.trans hop')
      rw [et, eu]
      exact sameProgress_accept h.view hidle hx hy

/-! ### Steps -/

theorem Indistinguishable.alike {x y : State} (h : Indistinguishable x y) : Alike x.block y.block :=
  ⟨h.same.blocks, h.progress⟩

/-- Outcomes that agree in the view agree in the progress too, where next states do. -/
theorem OutcomesRelated.indistinguishable {o o' : Host.Outcome State Fault Refusal} (h : OutcomesRelated SameView o o')
    (hp : ∀ t u, o = .next t → o' = .next u → SameView t u → SameProgress t.block u.block) :
    OutcomesRelated Indistinguishable o o' := by
  match o, o', h with
  | .next t, .next u, h => exact ⟨h, hp t u rfl rfl h⟩
  | .fault _, .fault _, h => exact h
  | .refused _, .refused _, h => exact h

section steps
variable {x y : State} (h : Indistinguishable x y)
include h

theorem Indistinguishable.exec (i : Instr) : OutcomesRelated Indistinguishable (exec i x) (exec i y) :=
  (h.same.exec i).indistinguishable fun _ _ ht hu hview => sameProgress_exec h.alike ht hu hview.blocks

theorem Indistinguishable.engineTurn : Indistinguishable (engineTurn x) (engineTurn y) :=
  ⟨h.same.onBlock h.alike.engineStep.view, h.alike.engineStep.progress⟩

theorem Indistinguishable.withInputs (rest : List Input) :
    Indistinguishable { x with inputs := rest } { y with inputs := rest } :=
  { h with same := { h.same with inputs := rfl } }

end steps

/-- Settles O58: the machines have the same inputs to come, and a micro-step, the reset input, a transaction that decodes and a bus
error each keep them alike. -/
theorem hiddenValuesNeverReachTheHost : Obligations.HiddenValuesNeverReachTheHost := by
  intro x y _ _ h
  have hinputs := h.same.inputs
  rcases hin : x.inputs with _ | ⟨⟨hd, wdata⟩ | _ | _, rest⟩
  · rw [step_nil hin, step_nil (hinputs ▸ hin)]
    exact h.engineTurn
  · cases hdec : decodeBus hd wdata with
    | ok i =>
      rw [step_bus_ok hin hdec, step_bus_ok (hinputs ▸ hin) hdec]
      exact (h.withInputs rest).exec i
    | error kind =>
      rw [step_bus_error hin hdec, step_bus_error (hinputs ▸ hin) hdec]
      exact ⟨(h.withInputs rest).same.respond _, h.progress⟩
  · rw [step_engine hin, step_engine (hinputs ▸ hin)]
    exact (h.withInputs rest).engineTurn
  · rw [step_reset hin, step_reset (hinputs ▸ hin)]
    exact ⟨(h.withInputs rest).same.onBlock (hostView_eq_iff.1 rfl), sameProgress_of_idle rfl⟩

end Sys2Proof.Machine
end

section
/-! PROOFS. Word packing over byte and word sequences (40_bus_access.md R106, R107). -/

namespace Sys2Proof.Machine

/-- A group built most significant byte first is the group packed (R106). -/
theorem buildWord_eq_pack4 (b0 b1 b2 b3 : Byte) : buildWord [b3, b2, b1, b0] = pack4 b0 b1 b2 b3 := by
  have turn (x y z w : Word) : x ||| y ||| z ||| w = w ||| z ||| y ||| x := by ac_rfl
  simp only [buildWord, List.foldl_cons, List.foldl_nil, BitVec.zero_shiftLeft, BitVec.zero_or,
    BitVec.shiftLeft_or_distrib, ← BitVec.shiftLeft_add]
  exact turn _ _ _ _

@[simp] theorem wordsToBytes_nil : wordsToBytes [] = [] := rfl

@[simp] theorem wordsToBytes_cons (w : Word) (ws : List Word) : wordsToBytes (w :: ws) = unpack4 w ++ wordsToBytes ws := rfl

theorem length_wordsToBytes (words : List Word) : (wordsToBytes words).length = 4 * words.length := by
  induction words with
  | nil => rfl
  | cons w ws ih =>
    have four : (unpack4 w).length = 4 := rfl
    rw [wordsToBytes_cons, List.length_append, ih, four, List.length_cons]
    omega

/-- Byte `4i + k` of the bytes of some words is lane `k` of word `i` (R107). -/
theorem getElem?_wordsToBytes (words : List Word) (i : Nat) {k : Nat} (hk : k < 4) :
    (wordsToBytes words)[4 * i + k]? = (words[i]?).map (byteLane · k) := by
  induction words generalizing i with
  | nil => simp
  | cons w ws ih =>
    cases i with
    | zero =>
      revert k
      rw [forall_lane]
      simp [unpack4]
    | succ i =>
      rw [wordsToBytes_cons, List.getElem?_append_right (by simp [unpack4]; omega), List.getElem?_cons_succ, ← ih i]
      congr 1
      simp [unpack4]
      omega

@[simp] theorem bytesToWords_wordsToBytes (words : List Word) : bytesToWords (wordsToBytes words) = words := by
  induction words with
  | nil => rfl
  | cons w ws ih =>
    rw [wordsToBytes_cons, unpack4]
    simp only [List.cons_append, List.nil_append, bytesToWords, ih, pack4_byteLane]

/-- A byte sequence of whole groups is the bytes of its words (R107). -/
theorem wordsToBytes_bytesToWords (bytes : List Byte) {c : Nat} (h : bytes.length = 4 * c) :
    wordsToBytes (bytesToWords bytes) = bytes := by
  induction bytes using bytesToWords.induct generalizing c with
  | case1 b0 b1 b2 b3 rest ih =>
    have hrest : rest.length = 4 * (c - 1) := by simp only [List.length_cons] at h; omega
    rw [bytesToWords, wordsToBytes_cons, unpack4_pack4, ih hrest]
    rfl
  | case2 bytes hshort =>
    match bytes, h, hshort with
    | [], _, _ => rfl
    | [_], h, _ | [_, _], h, _ | [_, _, _], h, _ => simp only [List.length_cons, List.length_nil] at h; omega
    | b0 :: b1 :: b2 :: b3 :: rest, _, hshort => exact absurd rfl (hshort b0 b1 b2 b3 rest)

/-- The scan over groups already turned round builds the words (R106). -/
theorem scanGroups_reversed (words : List Word) : scanGroups (words.flatMap fun w => (unpack4 w).reverse) = words := by
  induction words with
  | nil => rfl
  | cons w ws ih =>
    rw [List.flatMap_cons, unpack4]
    simp only [List.reverse_cons, List.reverse_nil, List.nil_append, List.cons_append, scanGroups, buildWord_eq_pack4,
      pack4_byteLane, ih]

/-- The reverse scan reads back the words of some bytes (R106). -/
theorem reverseScan_wordsToBytes (words : List Word) : bytesToWordsByReverseScan (wordsToBytes words) = words := by
  have turned : (wordsToBytes words).reverse = words.reverse.flatMap fun w => (unpack4 w).reverse := List.reverse_flatMap ..
  rw [bytesToWordsByReverseScan, turned, scanGroups_reversed, List.reverse_reverse]

/-- Settles O3: a byte sequence of whole groups is the bytes of some words, and of such bytes both readings give the words. -/
theorem byteSequencesPackGroupByGroup : Obligations.ByteSequencesPackGroupByGroup := by
  refine ⟨fun bytes c h => ?_, fun words => ⟨bytesToWords_wordsToBytes words, fun i _ k => getElem?_wordsToBytes words i⟩⟩
  obtain ⟨words, rfl⟩ : ∃ words, bytes = wordsToBytes words := ⟨_, (wordsToBytes_bytesToWords bytes h).symm⟩
  rw [length_wordsToBytes] at h
  simp only [bytesToWords_wordsToBytes, reverseScan_wordsToBytes, true_and, and_true]
  refine ⟨by omega, fun i hi => ?_⟩
  have hlen : i < words.length := by omega
  have byte (k : Nat) (hk : k < 4) : (wordsToBytes words).getD (4 * i + k) 0 = byteLane words[i] k := by
    simp [List.getD, getElem?_wordsToBytes words i hk, hlen]
  have byte0 : (wordsToBytes words).getD (4 * i) 0 = byteLane words[i] 0 := byte 0 (by decide)
  rw [byte0, byte 1 (by decide), byte 2 (by decide), byte 3 (by decide), pack4_byteLane, List.getElem?_eq_getElem hlen]

end Sys2Proof.Machine
end
